-- ==== Sys2Proof/Word.lean ====
section
/-! DEFINITION. The word type of the block: the byte (spec/00_scope.md R6, R9). -/

namespace Sys2Proof

/-- A register, a buffer element, an address, a packed-BCD byte: 8 bits, unsigned
(spec/00_scope.md R6 `BYTE`, `VAL_W`, `DEC_W`, `ADDR_W`). -/
abbrev Byte := BitVec 8

end Sys2Proof
end

