-- ==== Sys2Proof/Machine/Registers.lean ====
section
/-! DEFINITION. The register space's ten mapped registers, their addresses, and which of them the
write-protect gate covers (spec/20_memory.md R31, spec/10_state.md R13 to R23). -/

namespace Sys2Proof.Machine

/-- The ten mapped registers (spec/20_memory.md R31). -/
inductive Reg where
  | sec | min | hour | dow | dom | mon | year | ctr1 | ctr2 | trim
deriving DecidableEq, Repr

/-- The clock block, addresses 0x00 to 0x06 (spec/10_state.md R14 to R20). -/
structure ClockBlock where
  sec  : Byte
  min  : Byte
  hour : Byte
  dow  : Byte
  dom  : Byte
  mon  : Byte
  year : Byte
deriving DecidableEq, Repr, Inhabited

/-- `REG`: one byte for each of the ten mapped addresses (spec/10_state.md R13, R29). The 246 other
addresses have no state (spec/20_memory.md R32). -/
structure Regs where
  clock : ClockBlock
  ctr1  : Byte
  ctr2  : Byte
  trim  : Byte
deriving DecidableEq, Repr, Inhabited

/-- The address of each mapped register (spec/20_memory.md R31). -/
def Reg.addr : Reg → Byte
  | .sec => 0x00
  | .min => 0x01
  | .hour => 0x02
  | .dow => 0x03
  | .dom => 0x04
  | .mon => 0x05
  | .year => 0x06
  | .ctr1 => 0x0F
  | .ctr2 => 0x10
  | .trim => 0x12

/-- The mapped register at an address, none for the 246 unmapped addresses (spec/20_memory.md R31, R32). -/
def regAt (a : Byte) : Option Reg :=
  match a.toNat with
  | 0x00 => some .sec
  | 0x01 => some .min
  | 0x02 => some .hour
  | 0x03 => some .dow
  | 0x04 => some .dom
  | 0x05 => some .mon
  | 0x06 => some .year
  | 0x0F => some .ctr1
  | 0x10 => some .ctr2
  | 0x12 => some .trim
  | _ => none

/-- Writes to the clock block are gated, writes to CTR1, CTR2 and TRIM never are (spec/20_memory.md R43). -/
def Reg.gated : Reg → Bool
  | .sec | .min | .hour | .dow | .dom | .mon | .year => true
  | .ctr1 | .ctr2 | .trim => false

/-- The stored byte of a mapped register. -/
def Regs.get (r : Regs) : Reg → Byte
  | .sec => r.clock.sec
  | .min => r.clock.min
  | .hour => r.clock.hour
  | .dow => r.clock.dow
  | .dom => r.clock.dom
  | .mon => r.clock.mon
  | .year => r.clock.year
  | .ctr1 => r.ctr1
  | .ctr2 => r.ctr2
  | .trim => r.trim

/-- Stores all 8 bits of `v` in a mapped register (spec/20_memory.md R42: no bit forced or masked). -/
def Regs.set (r : Regs) (v : Byte) : Reg → Regs
  | .sec => { r with clock := { r.clock with sec := v } }
  | .min => { r with clock := { r.clock with min := v } }
  | .hour => { r with clock := { r.clock with hour := v } }
  | .dow => { r with clock := { r.clock with dow := v } }
  | .dom => { r with clock := { r.clock with dom := v } }
  | .mon => { r with clock := { r.clock with mon := v } }
  | .year => { r with clock := { r.clock with year := v } }
  | .ctr1 => { r with ctr1 := v }
  | .ctr2 => { r with ctr2 := v }
  | .trim => { r with trim := v }

/-- The byte stored at an address, none where the address is unmapped: the model's read of one byte of
the register space, without a draw. -/
def Regs.read? (r : Regs) (a : Byte) : Option Byte :=
  (regAt a).map r.get

end Sys2Proof.Machine
end

