-- ==== Sys2Proof/Config.lean ====
section
/-! DEFINITION. The parameters the spec leaves OPEN (spec/00_scope.md R6) and the free values (`draw`,
spec/00_scope.md R9). Every one is a constant without a body, so that no proof can see its value. -/

namespace Sys2Proof

/-- Which numbers, beside 0, stand for a transport error: the parameter that leaves the type `BusErr` OPEN
(spec/00_scope.md R6; log 5). -/
opaque Config.busErrCode : Nat → Bool

/-- `BusErr`, the type of a transport error (spec/00_scope.md R6, R8): OPEN, the block never inspects a value of it.
DESIGN CHOICE (log 5): its values are told apart by a number, and which numbers it has, and how many, no proof can
see; it has at least one. -/
structure BusErr where
  code    : Nat
  isError : code = 0 ∨ Config.busErrCode code = true
deriving DecidableEq, Repr

/-- What the transport answers to a frame (spec/00_scope.md R8). -/
inductive Verdict where
  | ok
  | err (e : BusErr)
deriving DecidableEq, Repr, Inhabited

namespace Config

open Sys2Proof.Machine

/-- By how much `BUF_MAX` exceeds 8 (spec/00_scope.md R6: OPEN, at least 8; log 8). -/
opaque bufMaxOver : Nat

/-- `BUF_MAX`, the largest buffer length (spec/00_scope.md R6, spec/10_state.md R11). -/
def bufMax : Nat := bufMaxOver + 8

/-- `DEV_ADDR`, the 7-bit device address (spec/00_scope.md R6: OPEN; log 9). -/
opaque devAddr : BitVec 7

/-- `REG_INIT(a)`, the register contents at reset (spec/10_state.md R27: OPEN; log 10). -/
opaque regInit : Byte → Byte

/-- The contents of `BUF[i]` at reset (spec/10_state.md R27: unspecified; log 10). -/
opaque bufInit : Nat → Byte

/-- The contents of `AP` at reset (spec/10_state.md R27: unspecified; log 10). -/
opaque apInit : Byte

/-- The timekeeper's step, the part of `TICK` that may change (spec/20_memory.md R49: it may change 0x00
to 0x06; it reads the whole register space; log 6). -/
opaque tickClock : Regs → ClockBlock

/-- How many times the timekeeper steps before an operation where the state schedules no number
(spec/20_memory.md R49: any number of times between two transactions; log 6). -/
opaque tickCount : Nat → Nat

/-- The transport's verdict on a frame where the state schedules no answer
(spec/93_implementation_defined.md U18: any value; log 4). -/
opaque verdict : Nat → Verdict

/-- `draw b in 0x00..0xFF`: the n-th free byte (spec/00_scope.md R9; log 7). -/
opaque freeByte : Nat → Byte

/-- `draw k`: the n-th free number, cut to its bound where it is used (spec/00_scope.md R9; log 7). -/
opaque freeNat : Nat → Nat

end Config

end Sys2Proof
end

