-- ==== Sys2Proof/Syntax.lean ====
section
/-! DEFINITION. The nine operations (spec/30_encoding.md R70), one constructor per row of
spec/opcode_table.json. -/

namespace Sys2Proof

/-- The tag of a tagged hour value (spec/30_encoding.md R68). The fourth code is reserved and has no
constructor (R73). -/
inductive HourTag where
  | h24
  | am
  | pm
deriving DecidableEq, Repr

/-- The nine primitive operations with their operands (spec/30_encoding.md R70, R76). -/
inductive Instr where
  /-- BCD.DEC b -/
  | bcdDec (b : Byte)
  /-- BCD.ENC v -/
  | bcdEnc (v : Byte)
  /-- HOUR.DEC b -/
  | hourDec (b : Byte)
  /-- HOUR.ENC tag, v -/
  | hourEnc (tag : HourTag) (v : Byte)
  /-- HOUR.TO24 tag, v -/
  | hourTo24 (tag : HourTag) (v : Byte)
  /-- WR.REG a, d -/
  | wrReg (a d : Byte)
  /-- WR.BURST [b0, ..., b(L-1)]: b0 is the start address -/
  | wrBurst (bytes : List Byte)
  /-- RD.REG a -/
  | rdReg (a : Byte)
  /-- RD.BURST a, L -/
  | rdBurst (a : Byte) (len : Nat)
deriving DecidableEq, Repr

end Sys2Proof
end

