-- ==== Sys2Proof/Machine/State.lean ====
section
/-! DEFINITION. The machine's state as plain data, and the state after reset (spec/10_state.md R29, R27). -/

namespace Sys2Proof.Machine

/-- The four outcomes of an operation or pseudo-operation (spec/60_exceptions.md R160). -/
inductive Status where
  | ok
  | invalidInputData
  | busError
  | unsupported
deriving DecidableEq, Repr

/-- The response to the last command: its status and the result fields its rule names
(spec/00_scope.md R7, spec/30_encoding.md R69, spec/60_exceptions.md R160). A field that an operation does not
return has no place in the constructor of its response. -/
inductive Response where
  /-- no command has been answered yet (the model's own, log 2) -/
  | unanswered
  /-- OK, `val`: BCD.DEC -/
  | val (v : BitVec 8)
  /-- OK, `byte`: BCD.ENC, HOUR.ENC, RD.REG -/
  | byte (b : Byte)
  /-- OK, `tag`, `val`: HOUR.DEC -/
  | hour (tag : HourTag) (v : BitVec 8)
  /-- OK, `val` of 9 bits: HOUR.TO24 -/
  | val9 (v : BitVec 9)
  /-- OK, no result: WR.REG, WR.BURST -/
  | done
  /-- OK, `buf`: RD.BURST -/
  | buf (bytes : List Byte)
  /-- InvalidInputData, no information: HOUR.ENC -/
  | invalidInputData
  /-- BusError, `err = e`: the four transfer operations -/
  | busError (e : BusErr)
deriving DecidableEq, Repr

/-- The two bus transaction shapes (spec/00_scope.md R8, spec/30_encoding.md R65, R66). -/
inductive Frame where
  /-- `XferW(DEV_ADDR, bytes)` -/
  | w (dev : BitVec 7) (bytes : List Byte)
  /-- `XferWR(DEV_ADDR, a, M)` -/
  | wr (dev : BitVec 7) (a : Byte) (m : Nat)
deriving DecidableEq, Repr

/-- The state. `buf`, `len`, `ap` and `reg` are the block's (spec/10_state.md R29: "Nothing else persists
from one operation to the next"). The other fields are the model's own and hold the agents around the block:
the host's command stream and last response (log 1, log 2), the frames the transport has carried (log 3), its
coming answers (log 4), the timekeeper's coming firings (log 6), and the counter of free values (log 7). -/
structure State where
  /-- `BUF` (spec/10_state.md R10) -/
  buf     : List Byte
  /-- `LEN` (spec/10_state.md R11) -/
  len     : Nat
  /-- `AP` (spec/10_state.md R12) -/
  ap      : Byte
  /-- `REG` (spec/10_state.md R13 to R23) -/
  reg     : Regs
  /-- the command bytes the host has still to present, in order (spec/00_scope.md R7) -/
  host    : List Byte
  /-- the response to the last command (spec/00_scope.md R7) -/
  resp    : Response
  /-- the bus frames sent so far, oldest first (spec/00_scope.md R8) -/
  frames  : List Frame
  /-- the transport's answers to the coming frames; an entry `none` is a transport that never answers
  (spec/93_implementation_defined.md U7, U18) -/
  answers : List (Option Verdict)
  /-- how often the timekeeper steps before each coming operation (spec/20_memory.md R49) -/
  ticks   : List Nat
  /-- how many free values have been drawn (spec/00_scope.md R9) -/
  draws   : Nat
deriving DecidableEq, Repr

/-- Why the machine stops without an answer to the host. -/
inductive Fault where
  /-- The transport never answers the frame of a transfer operation: "the operation does not end and the host
  stays blocked" (spec/93_implementation_defined.md U7). Raised by WR.REG, WR.BURST, RD.REG and RD.BURST where
  the state schedules a silent transport. Safe. -/
  | transportSilent
deriving DecidableEq, Repr

/-- Why a command has no meaning. -/
inductive Refusal where
  /-- An instruction that has no meaning in this model yet; raised by `exec`. Safe. -/
  | notModelled (mnemonic : String)
  /-- A reserved opcode byte (spec/30_encoding.md R72); raised by the fetch. Safe. -/
  | reservedOpcode (op : Byte)
  /-- A reserved tag byte of HOUR.ENC or HOUR.TO24 (spec/30_encoding.md R73); raised by the fetch. Safe. -/
  | reservedTag (t : Byte)
  /-- A buffer length outside 1 to BUF_MAX (spec/30_encoding.md R78); raised by WR.BURST and RD.BURST. Safe. -/
  | bufferLength (len : Nat)
  /-- The host's bytes end inside a command (DESIGN CHOICE, log 1); raised by the fetch. Safe. -/
  | incompleteCommand
deriving DecidableEq, Repr

/-- `REG` at reset: `REG_INIT(a)` at every mapped address (spec/10_state.md R27). -/
def initialRegs : Regs where
  clock :=
    { sec := Config.regInit 0x00, min := Config.regInit 0x01, hour := Config.regInit 0x02,
      dow := Config.regInit 0x03, dom := Config.regInit 0x04, mon := Config.regInit 0x05,
      year := Config.regInit 0x06 }
  ctr1 := Config.regInit 0x0F
  ctr2 := Config.regInit 0x10
  trim := Config.regInit 0x12

/-- The machine right after reset (spec/10_state.md R27, spec/70_reset_and_hazards.md R180): `LEN = 0`, `REG`
at the parameter `REG_INIT`, `BUF` and `AP` unspecified (log 10); the host has sent nothing and nothing is
scheduled (log 11). -/
def State.reset : State where
  buf := (List.range' 0 Config.bufMax).map Config.bufInit
  len := 0
  ap := Config.apInit
  reg := initialRegs
  host := []
  resp := .unanswered
  frames := []
  answers := []
  ticks := []
  draws := 0

end Sys2Proof.Machine
end

