-- ==== Sys2Proof/Machine/Flags.lean ====
section
/-! DEFINITION. The block has no status flags (spec/10_state.md R25). The flags it has are the three
write-enable bits of the control registers and the gate they open (spec/10_state.md R21, R22,
spec/20_memory.md R44), and the status of a response (spec/60_exceptions.md R160). -/

namespace Sys2Proof.Machine

/-- `WE1`, bit 7 of CTR2 (spec/10_state.md R22). -/
def Regs.we1 (r : Regs) : Bool := r.ctr2.getLsbD 7

/-- `WE2`, bit 2 of CTR1 (spec/10_state.md R21). -/
def Regs.we2 (r : Regs) : Bool := r.ctr1.getLsbD 2

/-- `WE3`, bit 7 of CTR1 (spec/10_state.md R21). -/
def Regs.we3 (r : Regs) : Bool := r.ctr1.getLsbD 7

/-- `WE(REG)`: the gate is open when all three write-enable flags are 1 (spec/20_memory.md R44). -/
def Regs.gateOpen (r : Regs) : Bool := r.we1 && r.we3 && r.we2

/-- The number of a status (spec/60_exceptions.md R160). -/
def Status.number : Status → BitVec 2
  | .ok => 0
  | .invalidInputData => 1
  | .busError => 2
  | .unsupported => 3

/-- The status `st` of a response (spec/60_exceptions.md R160). -/
def Response.st : Response → Status
  | .unanswered | .val _ | .byte _ | .hour _ _ | .val9 _ | .done | .buf _ => .ok
  | .invalidInputData => .invalidInputData
  | .busError _ => .busError

end Sys2Proof.Machine
end

