-- ==== Sys2Proof/Machine/Operands.lean ====
section
/-! DEFINITION. Operands: the one addressing mode (spec/42_sequencer.md R117), the result fields of a response
(spec/30_encoding.md R69) and the elements of the buffer. -/

namespace Sys2Proof.Machine

/-- The effective address of data byte `i` (from 1) of a transfer that starts at `a`:
`EA(i) = (a + i - 1) % 256` (spec/42_sequencer.md R117). -/
def effectiveAddress (a : Byte) (i : Nat) : Byte := a + BitVec.ofNat 8 (i - 1)

/-- `BUF[i]`. -/
def State.bufAt (s : State) (i : Nat) : Byte := s.buf.getD i 0

/-- The field `byte` of a response, meaningful only where the response has it. -/
def Response.byteField : Response → Byte
  | .byte b => b
  | _ => 0

/-- The field `val` of BCD.DEC and HOUR.DEC, meaningful only where the response has it. -/
def Response.valField : Response → BitVec 8
  | .val v => v
  | .hour _ v => v
  | _ => 0

/-- The field `val` of HOUR.TO24, meaningful only where the response has it. -/
def Response.val9Field : Response → BitVec 9
  | .val9 v => v
  | _ => 0

/-- The field `tag`, meaningful only where the response has it. -/
def Response.tagField : Response → HourTag
  | .hour t _ => t
  | _ => .h24

/-- Element `i` of the field `buf`, meaningful only where the response has it. -/
def Response.bufField (i : Nat) : Response → Byte
  | .buf bytes => bytes.getD i 0
  | _ => 0

end Sys2Proof.Machine
end

