-- ==== Sys2Proof/Machine/Ops.lean ====
section
/-! DEFINITION. The shared operations: the response, the free values, the register space, the buffer and the
address pointer, the transport, the passing of time. -/

namespace Sys2Proof.Machine

/-- The block answers the host (spec/00_scope.md R7). -/
def State.respond (r : Response) (s : State) : State := { s with resp := r }

/-- Taking an exception: `raise <Error>(info)` ends the operation with a non-OK status and nothing else
(spec/00_scope.md R9, spec/60_exceptions.md R168: "Nothing is saved anywhere, no mode changes, no mask
changes"). There is no return from one (R169): the next command runs as usual. -/
def State.raise (e : Response) (s : State) : State := s.respond e

/-- `draw b in 0x00..0xFF` (spec/00_scope.md R9). -/
def State.drawByte (s : State) : Byte × State :=
  (Config.freeByte s.draws, { s with draws := s.draws + 1 })

/-- `draw` of `n` bytes. -/
def State.drawBytes : Nat → State → List Byte × State
  | 0, s => ([], s)
  | n + 1, s =>
    let d := s.drawByte
    let ds := State.drawBytes n d.2
    (d.1 :: ds.1, ds.2)

/-- `draw k in 0 .. n` (spec/00_scope.md R9). -/
def State.drawUpTo (n : Nat) (s : State) : Nat × State :=
  (Config.freeNat s.draws % (n + 1), { s with draws := s.draws + 1 })

/-- `RegWrite(a, v)` on the register space (spec/20_memory.md R41): the clock block through the gate as it
stands (R43 to R46), the control registers always, an unmapped address to no effect (R32). -/
def Regs.write (r : Regs) (a v : Byte) : Regs :=
  match regAt a with
  | none => r
  | some x => if x.gated && !r.gateOpen then r else r.set v x

/-- `RegRead(a)` (spec/20_memory.md R40): the stored byte, a fresh draw at an unmapped address. -/
def State.regRead (a : Byte) (s : State) : Byte × State :=
  match s.reg.read? a with
  | some v => (v, s)
  | none => s.drawByte

/-- `RegWrite(a, v)` (spec/20_memory.md R41). -/
def State.regWrite (a v : Byte) (s : State) : State := { s with reg := s.reg.write a v }

/-- `AP <- a` (spec/10_state.md R12). -/
def State.setAp (a : Byte) (s : State) : State := { s with ap := a }

/-- `AP <- (AP + 1) % 256` (spec/10_state.md R12). -/
def State.advance (s : State) : State := { s with ap := s.ap + 1 }

/-- `BUF[0 .. L-1] <- bytes ; LEN <- L`; the elements from `L` on keep what they held
(spec/42_sequencer.md R119). -/
def State.loadBuf (bytes : List Byte) (s : State) : State :=
  { s with buf := bytes ++ s.buf.drop bytes.length, len := bytes.length }

/-- The write loop of a `W` frame: each data byte to the address in `AP`, in order, the pointer incremented
after each (spec/42_sequencer.md R111). -/
def State.writeBytes : List Byte → State → State
  | [], s => s
  | d :: ds, s => State.writeBytes ds (s.regWrite s.ap d).advance

/-- The read loop of a `WR` frame (spec/42_sequencer.md R113). -/
def State.readBytes : Nat → State → List Byte × State
  | 0, s => ([], s)
  | n + 1, s =>
    let d := s.regRead s.ap
    let ds := State.readBytes n d.2.advance
    (d.1 :: ds.1, ds.2)

/-- `PartialWrite` with its two draws made: the first `k` data bytes are written through the gate, then `AP`
holds an arbitrary value (spec/42_sequencer.md R116). -/
def State.partialWrite (k : Nat) (apAfter : Byte) (a : Byte) (data : List Byte) (s : State) : State :=
  ((s.setAp a).writeBytes (data.take k)).setAp apAfter

/-- The transport's verdict on the next frame: the scheduled answer, or a free one where none is scheduled;
`none` where the transport never answers (spec/00_scope.md R8, spec/93_implementation_defined.md U7, U18). -/
def State.verdict (s : State) : Option Verdict :=
  match s.answers with
  | [] => some (Config.verdict s.draws)
  | v :: _ => v

/-- The state after the transport has carried a frame and answered it: the frame is on record, the answer is
used up (spec/42_sequencer.md R118: the transport is asked once). -/
def State.asked (f : Frame) (s : State) : State :=
  match s.answers with
  | [] => { s with frames := s.frames ++ [f], draws := s.draws + 1 }
  | _ :: rest => { s with frames := s.frames ++ [f], answers := rest }

/-- One transfer: the frame goes out once; the operation ends by `ending` on the transport's verdict, and
never ends if there is none (spec/42_sequencer.md R118). -/
def State.transfer (f : Frame) (ending : Verdict → State → State) (s : State) :
    Host.Outcome State Fault Refusal :=
  match s.verdict with
  | none => .fault .transportSilent
  | some v => .next (ending v (s.asked f))

/-- `TICK`: the timekeeper may change the clock block and leaves CTR1, CTR2 and TRIM
(spec/20_memory.md R49). -/
def Regs.tick (r : Regs) : Regs := { r with clock := Config.tickClock r }

/-- `n` steps of the timekeeper. -/
def Regs.tickN : Nat → Regs → Regs
  | 0, r => r
  | n + 1, r => Regs.tickN n r.tick

/-- Time passes between two operations: the timekeeper steps any number of times
(spec/20_memory.md R49), the scheduled number or a free one. -/
def State.timePasses (s : State) : State :=
  match s.ticks with
  | [] => { s with reg := s.reg.tickN (Config.tickCount s.draws), draws := s.draws + 1 }
  | n :: rest => { s with reg := s.reg.tickN n, ticks := rest }

end Sys2Proof.Machine
end

