-- ==== Sys2Proof/Machine/Bcd.lean ====
section
/-! DEFINITION. The BCD codec: BCD.DEC and BCD.ENC (spec/40_bcd_codec.md). -/

namespace Sys2Proof.Machine

/-- `BCD.DEC(b) = T*10 + U` with `T = b[7:4]`, `U = b[3:0]`: 0 to 165, no overflow in 8 bits
(spec/40_bcd_codec.md R90, R93). -/
def bcdDecode (b : Byte) : BitVec 8 := BitVec.ofNat 8 (b.toNat / 16 * 10 + b.toNat % 16)

/-- `BCD.ENC(v) = ((q % 16) << 4) | r` with `q = v / 10`, `r = v % 10`: the bits of `q` above bit 3 are lost
(spec/40_bcd_codec.md R91, R93). -/
def bcdEncode (v : Byte) : Byte :=
  (BitVec.ofNat 8 (v.toNat / 10 % 16) <<< 4) ||| BitVec.ofNat 8 (v.toNat % 10)

/-- BCD.DEC b (spec/40_bcd_codec.md R90): never an error, no state. -/
def execBcdDec (b : Byte) (s : State) : Host.Outcome State Fault Refusal :=
  .next (s.respond (.val (bcdDecode b)))

/-- BCD.ENC v (spec/40_bcd_codec.md R91): never an error, no state. -/
def execBcdEnc (v : Byte) (s : State) : Host.Outcome State Fault Refusal :=
  .next (s.respond (.byte (bcdEncode v)))

end Sys2Proof.Machine
end

