-- ==== Sys2Proof/Machine/Hour.lean ====
section
/-! DEFINITION. The hour-format codec: HOUR.DEC, HOUR.ENC and HOUR.TO24 (spec/41_hour_codec.md). -/

namespace Sys2Proof.Machine

/-- HOUR.DEC(b): bit 7 is tested before bit 5; bit 7 alone is masked in the 24-hour layout, bits 7 and 5 in
the 12-hour layout (spec/41_hour_codec.md R100, spec/30_encoding.md R61). -/
def hourDecode (b : Byte) : HourTag × BitVec 8 :=
  if b.getLsbD 7 then (.h24, bcdDecode (b &&& 0x7F))
  else if b.getLsbD 5 then (.pm, bcdDecode (b &&& 0x5F))
  else (.am, bcdDecode (b &&& 0x5F))

/-- The ranges HOUR.ENC accepts (spec/41_hour_codec.md R101, spec/30_encoding.md R68). -/
def hourInRange : HourTag → Byte → Bool
  | .h24, v => decide (v.toNat ≤ 23)
  | .am, v => decide (1 ≤ v.toNat) && decide (v.toNat ≤ 12)
  | .pm, v => decide (1 ≤ v.toNat) && decide (v.toNat ≤ 12)

/-- The byte of an hour value in range (spec/41_hour_codec.md R101). -/
def hourEncode : HourTag → Byte → Byte
  | .h24, v => bcdEncode v ||| 0x80
  | .am, v => bcdEncode v
  | .pm, v => bcdEncode v ||| 0x20

/-- HOUR.TO24(tag, v): H24 and AM pass through, PM adds 12, exactly, on 9 bits
(spec/41_hour_codec.md R102, R105). -/
def hourTo24 : HourTag → Byte → BitVec 9
  | .h24, v => v.zeroExtend 9
  | .am, v => v.zeroExtend 9
  | .pm, v => v.zeroExtend 9 + 12

/-- HOUR.DEC b (spec/41_hour_codec.md R100): never an error, no state. -/
def execHourDec (b : Byte) (s : State) : Host.Outcome State Fault Refusal :=
  .next (s.respond (.hour (hourDecode b).1 (hourDecode b).2))

/-- HOUR.ENC tag, v (spec/41_hour_codec.md R101): InvalidInputData out of range, before anything is computed. -/
def execHourEnc (tag : HourTag) (v : Byte) (s : State) : Host.Outcome State Fault Refusal :=
  if hourInRange tag v then .next (s.respond (.byte (hourEncode tag v)))
  else .next (s.raise .invalidInputData)

/-- HOUR.TO24 tag, v (spec/41_hour_codec.md R102): never an error, no range check, no state. -/
def execHourTo24 (tag : HourTag) (v : Byte) (s : State) : Host.Outcome State Fault Refusal :=
  .next (s.respond (.val9 (hourTo24 tag v)))

end Sys2Proof.Machine
end

