-- ==== Sys2Proof/WellFormed.lean ====
section
/-! DEFINITION. Which terms of `Instr` are commands: the one operand check that the types leave, the buffer
length (spec/30_encoding.md R69, R78). A reserved tag (R73) has no term. -/

namespace Sys2Proof

/-- A buffer length a command may carry: `1 <= L <= BUF_MAX` (spec/30_encoding.md R69, R78), and `L` is one
byte of the command (R69). -/
def lenOk (n : Nat) : Bool :=
  decide (1 ≤ n) && decide (n ≤ Config.bufMax) && decide (n < 256)

/-- Well-formed instructions. -/
def Instr.wf : Instr → Bool
  | .bcdDec _ | .bcdEnc _ | .hourDec _ | .hourEnc _ _ | .hourTo24 _ _ | .wrReg _ _ | .rdReg _ => true
  | .wrBurst bytes => lenOk bytes.length
  | .rdBurst _ len => lenOk len

end Sys2Proof
end

