-- ==== Sys2Proof/Machine/Sequencer.lean ====
section
/-! DEFINITION. The burst register sequencer: WR.REG, WR.BURST, RD.REG and RD.BURST (spec/42_sequencer.md). -/

namespace Sys2Proof.Machine

/-- How a `W` frame ends: on ok every data byte is written in order from `AP = a`
(spec/42_sequencer.md R111); on an error a drawn prefix of them is, `AP` is drawn, and BusError carries the
transport's error unchanged (R116, spec/60_exceptions.md R162). -/
def endWrite (a : Byte) (data : List Byte) : Verdict → State → State
  | .ok, s => ((s.setAp a).writeBytes data).respond .done
  | .err e, s =>
    let k := s.drawUpTo data.length
    let p := k.2.drawByte
    (p.2.partialWrite k.1 p.1 a data).raise (.busError e)

/-- How a `WR` frame ends: on ok `n` registers are read into `BUF[1 ..]` from `AP = a`, all from one register
state, and `answer` gives the response (spec/42_sequencer.md R112, R113); on an error the data elements of
`BUF` and `AP` are drawn and no register changes (R116). -/
def endRead (a : Byte) (n : Nat) (answer : State → Response) : Verdict → State → State
  | .ok, s =>
    let r := (s.setAp a).readBytes n
    let t := r.2.loadBuf (a :: r.1)
    t.respond (answer t)
  | .err e, s =>
    let d := s.drawBytes n
    let p := d.2.drawByte
    ((p.2.loadBuf (a :: d.1)).setAp p.1).raise (.busError e)

/-- A write transfer of the buffer `a :: data` (spec/42_sequencer.md R110, R111, spec/30_encoding.md R65). -/
def writeTransfer (a : Byte) (data : List Byte) (s : State) : Host.Outcome State Fault Refusal :=
  (s.loadBuf (a :: data)).transfer (.w Config.devAddr (a :: data)) (endWrite a data)

/-- A read transfer of `n` data bytes from `a` (spec/42_sequencer.md R112, R113, spec/30_encoding.md R66). -/
def readTransfer (a : Byte) (n : Nat) (answer : State → Response) (s : State) :
    Host.Outcome State Fault Refusal :=
  s.transfer (.wr Config.devAddr a n) (endRead a n answer)

/-- WR.REG a, d (spec/42_sequencer.md R110). -/
def execWrReg (a d : Byte) (s : State) : Host.Outcome State Fault Refusal :=
  writeTransfer a [d] s

/-- WR.BURST [b0, ..., b(L-1)] (spec/42_sequencer.md R111); a length outside 1 to BUF_MAX is refused
(spec/30_encoding.md R78). -/
def execWrBurst (bytes : List Byte) (s : State) : Host.Outcome State Fault Refusal :=
  match bytes with
  | [] => .refused (.bufferLength 0)
  | a :: data =>
    if lenOk (data.length + 1) then writeTransfer a data s
    else .refused (.bufferLength (data.length + 1))

/-- RD.REG a (spec/42_sequencer.md R112): the response is `BUF[1]`. -/
def execRdReg (a : Byte) (s : State) : Host.Outcome State Fault Refusal :=
  readTransfer a 1 (fun t => .byte (t.bufAt 1)) s

/-- RD.BURST a, L (spec/42_sequencer.md R113): the response is `BUF[0 .. L-1]`; a length outside 1 to BUF_MAX
is refused (spec/30_encoding.md R78). -/
def execRdBurst (a : Byte) (len : Nat) (s : State) : Host.Outcome State Fault Refusal :=
  if lenOk len then readTransfer a (len - 1) (fun t => .buf (t.buf.take t.len)) s
  else .refused (.bufferLength len)

end Sys2Proof.Machine
end

