-- ==== Sys2Proof/Machine/Dispatch.lean ====
section
/-! DEFINITION. One arm per operation (spec/30_encoding.md R70). -/

namespace Sys2Proof.Machine

def exec (i : Instr) (s : State) : Host.Outcome State Fault Refusal :=
  match i with
  -- the codecs
  | .bcdDec b => Sys2Proof.Machine.execBcdDec b s
  | .bcdEnc v => Sys2Proof.Machine.execBcdEnc v s
  | .hourDec b => Sys2Proof.Machine.execHourDec b s
  | .hourEnc tag v => Sys2Proof.Machine.execHourEnc tag v s
  | .hourTo24 tag v => Sys2Proof.Machine.execHourTo24 tag v s
  -- the transfers
  | .wrReg a d => Sys2Proof.Machine.execWrReg a d s
  | .wrBurst bytes => Sys2Proof.Machine.execWrBurst bytes s
  | .rdReg a => Sys2Proof.Machine.execRdReg a s
  | .rdBurst a len => Sys2Proof.Machine.execRdBurst a len s

end Sys2Proof.Machine
end

