-- ==== Sys2Proof/Decode.lean ====
section
/-! DEFINITION. The decoder of a command's bytes and the encoder (spec/30_encoding.md R68 to R75). -/

namespace Sys2Proof

/-- Why a byte string is no command. -/
inductive Reject where
  /-- the opcode byte is reserved (spec/30_encoding.md R72) -/
  | reservedOpcode (op : Byte)
  /-- the tag byte is reserved (spec/30_encoding.md R73) -/
  | reservedTag (t : Byte)
  /-- the bytes end before the command does (DESIGN CHOICE, log 1) -/
  | incomplete
deriving DecidableEq, Repr

/-- What the decoder answers: the first command of a byte string and the bytes after it, or why there is none. -/
inductive Decoded where
  | command (i : Instr) (rest : List Byte)
  | rejected (why : Reject)
deriving DecidableEq, Repr

/-- The tag a tag byte `0000 00tt` carries, none for a reserved one (spec/30_encoding.md R68, R69, R73). -/
def tagOfByte (t : Byte) : Option HourTag :=
  match t.toNat with
  | 0 => some .h24
  | 1 => some .am
  | 2 => some .pm
  | _ => none

/-- The 2-bit code of a tag (spec/30_encoding.md R68). -/
def HourTag.code : HourTag → BitVec 2
  | .h24 => 0b00
  | .am => 0b01
  | .pm => 0b10

/-- Format `C1`: `op`, `x` (spec/30_encoding.md R69). -/
def decodeC1 (f : Byte → Instr) : List Byte → Decoded
  | x :: rest => .command (f x) rest
  | [] => .rejected .incomplete

/-- Format `C2`: `op`, `x`, `y` (spec/30_encoding.md R69). -/
def decodeC2 (f : Byte → Byte → Instr) : List Byte → Decoded
  | x :: y :: rest => .command (f x y) rest
  | _ => .rejected .incomplete

/-- Format `C2` whose `x` is a tag byte (spec/30_encoding.md R69, R73). -/
def decodeTagged (f : HourTag → Byte → Instr) : List Byte → Decoded
  | t :: v :: rest =>
    match tagOfByte t with
    | some tag => .command (f tag v) rest
    | none => .rejected (.reservedTag t)
  | _ => .rejected .incomplete

/-- The first `n` bytes and the bytes after them, none where there are fewer. -/
def takeBytes : Nat → List Byte → Option (List Byte × List Byte)
  | 0, bytes => some ([], bytes)
  | _ + 1, [] => none
  | n + 1, b :: bytes =>
    match takeBytes n bytes with
    | some (front, rest) => some (b :: front, rest)
    | none => none

/-- Format `CW`: `op`, `L`, `b0`, ..., `b(L-1)` (spec/30_encoding.md R69, R75). Whether the length is one a
buffer may have (R78) is the meaning's check. -/
def decodeCW (f : List Byte → Instr) : List Byte → Decoded
  | l :: bytes =>
    match takeBytes l.toNat bytes with
    | some (buffer, rest) => .command (f buffer) rest
    | none => .rejected .incomplete
  | [] => .rejected .incomplete

/-- Format `CR`: `op`, `L`, `a` (spec/30_encoding.md R69). -/
def decodeCR (f : Byte → Nat → Instr) : List Byte → Decoded
  | l :: a :: rest => .command (f a l.toNat) rest
  | _ => .rejected .incomplete

/-- The opcode map (spec/30_encoding.md R70): the opcode byte fixes the format (R75); every other opcode byte
is reserved (R72). -/
def decode : List Byte → Decoded
  | [] => .rejected .incomplete
  | op :: rest =>
    match op.toNat with
    | 0x01 => decodeC1 .bcdDec rest
    | 0x02 => decodeC1 .bcdEnc rest
    | 0x03 => decodeC1 .hourDec rest
    | 0x04 => decodeTagged .hourEnc rest
    | 0x05 => decodeTagged .hourTo24 rest
    | 0x08 => decodeC2 .wrReg rest
    | 0x09 => decodeCW .wrBurst rest
    | 0x0A => decodeC1 .rdReg rest
    | 0x0B => decodeCR .rdBurst rest
    | _ => .rejected (.reservedOpcode op)

/-- The longest a command can be: opcode, length byte, 255 buffer bytes (spec/30_encoding.md R75). -/
def longestCommand : Nat := 257

/-- The bytes of an opcode-table word: bit 0 is the least significant bit of the first byte; every bit from
`nbits` up is 0. -/
def tableBytes (nbits w : Nat) : List Byte :=
  (List.range' 0 longestCommand).map fun k => BitVec.ofNat 8 ((w % 2 ^ nbits) / 2 ^ (8 * k))

/-- The instruction the decoder reads from an opcode-table word. -/
def decodeTableWord (nbits w : Nat) : Option Instr :=
  match decode (tableBytes nbits w) with
  | .command i _ => some i
  | .rejected _ => none

/-- The opcode byte of each operation (spec/30_encoding.md R70). -/
def opcodeByte : Instr → Byte
  | .bcdDec _ => 0x01
  | .bcdEnc _ => 0x02
  | .hourDec _ => 0x03
  | .hourEnc _ _ => 0x04
  | .hourTo24 _ _ => 0x05
  | .wrReg _ _ => 0x08
  | .wrBurst _ => 0x09
  | .rdReg _ => 0x0A
  | .rdBurst _ _ => 0x0B

/-- A tag as its byte `0000 00tt` (spec/30_encoding.md R69). -/
def tagByte (t : HourTag) : Byte := t.code.zeroExtend 8

/-- The operand bytes of a command (spec/30_encoding.md R69). -/
def operandBytes : Instr → List Byte
  | .bcdDec b => [b]
  | .bcdEnc v => [v]
  | .hourDec b => [b]
  | .hourEnc tag v => [tagByte tag, v]
  | .hourTo24 tag v => [tagByte tag, v]
  | .wrReg a d => [a, d]
  | .wrBurst bytes => BitVec.ofNat 8 bytes.length :: bytes
  | .rdReg a => [a]
  | .rdBurst a len => [BitVec.ofNat 8 len, a]

/-- The command bytes of a well-formed instruction (spec/30_encoding.md R69, R70). -/
def encode (i : Instr) : List Byte := opcodeByte i :: operandBytes i

/-- How many bytes each operation's command has (spec/30_encoding.md R75): 2, 3 and 3 for the formats C1, C2
and CR, `2 + L` for CW. -/
def commandLength : Instr → Nat
  | .bcdDec _ | .bcdEnc _ | .hourDec _ | .rdReg _ => 2
  | .hourEnc _ _ | .hourTo24 _ _ | .wrReg _ _ | .rdBurst _ _ => 3
  | .wrBurst bytes => 2 + bytes.length

/-- The bytes of an opcode-table word up to the end of the command they hold; all of them where they hold none. -/
def tableCommand (nbits w : Nat) : List Byte :=
  match decode (tableBytes nbits w) with
  | .command i _ => (tableBytes nbits w).take (commandLength i)
  | .rejected _ => tableBytes nbits w

end Sys2Proof
end

