-- ==== Sys2Proof/Machine/Fetch.lean ====
section
/-! DEFINITION. Taking the next command from the host (spec/00_scope.md R7, spec/20_memory.md R51: operations
arrive on the host command interface, one at a time). -/

namespace Sys2Proof.Machine

/-- The refusal that answers bytes that are no command. -/
def refusalOf : Reject → Refusal
  | .reservedOpcode op => .reservedOpcode op
  | .reservedTag t => .reservedTag t
  | .incomplete => .incompleteCommand

/-- The host presents what is left of its command bytes after the first command. -/
def State.setHost (bytes : List Byte) (s : State) : State := { s with host := bytes }

/-- What the block finds on the host command interface. -/
inductive Fetched where
  /-- no command waits -/
  | idle
  /-- the next command, and the state with its bytes taken -/
  | command (i : Instr) (s : State)
  /-- bytes that are no command -/
  | rejected (r : Refusal)
deriving DecidableEq, Repr

/-- Take the next command. -/
def State.fetch (s : State) : Fetched :=
  match s.host with
  | [] => .idle
  | op :: rest =>
    match decode (op :: rest) with
    | .command i rest' => .command i (s.setHost rest')
    | .rejected why => .rejected (refusalOf why)

/-- The host presents the command of an opcode-table word before everything else it has to present. -/
def State.presentWord (s : State) (nbits w : Nat) : State := s.setHost (tableCommand nbits w ++ s.host)

end Sys2Proof.Machine
end

