-- ==== Sys2Proof/Machine/Step.lean ====
section
/-! DEFINITION. One step of the machine: time passes, then the block performs the host's next command whole, or
waits if there is none (spec/00_scope.md R5, spec/20_memory.md R37, R49, spec/70_reset_and_hazards.md R181). -/

namespace Sys2Proof.Machine

/-- One step. -/
def step (s : State) : Host.Outcome State Fault Refusal :=
  match s.timePasses.fetch with
  | .idle => .next s.timePasses
  | .command i t => exec i t
  | .rejected r => .refused r

/-- `s` with the instruction of an opcode-table word where `step` takes its next command (log 1). -/
def State.withFetchWord (s : State) (nbits w : Nat) : State := s.presentWord nbits w

end Sys2Proof.Machine
end

