-- ==== Sys2Proof/Machine/Driver.lean ====
section
/-! DEFINITION. The clock-driver sequences: the pseudo-operations, as host-side sequences of the nine operations
(spec/43_driver_sequences.md, spec/30_encoding.md R77, spec/00_scope.md R3). They add no state. -/

namespace Sys2Proof.Machine

/-- What a pseudo-operation returns to the host's program: the decoded numbers, in the widths of
spec/43_driver_sequences.md R148, or a status that is not OK. -/
inductive Result where
  /-- second, minute, day or month -/
  | number (v : BitVec 8)
  /-- weekday, 1 is Sunday -/
  | weekday (v : BitVec 9)
  /-- calendar year -/
  | year (v : BitVec 12)
  /-- a tagged hour value -/
  | hour (tag : HourTag) (v : BitVec 8)
  | time (hour : BitVec 9) (minute second : BitVec 8)
  | date (year : BitVec 12) (month day : BitVec 8)
  | dateTime (year : BitVec 12) (month day : BitVec 8) (weekday hour : BitVec 9) (minute second : BitVec 8)
  | done
  | invalidInputData
  | busError (e : BusErr)
  | unsupported
deriving DecidableEq, Repr

/-- The status of a pseudo-operation (spec/60_exceptions.md R160). -/
def Result.st : Result → Status
  | .number _ | .weekday _ | .year _ | .hour _ _ | .time _ _ _ | .date _ _ _ | .dateTime _ _ _ _ _ _ _
  | .done => .ok
  | .invalidInputData => .invalidInputData
  | .busError _ => .busError
  | .unsupported => .unsupported

/-- How a pseudo-operation ends: the state it leaves and its result, or the stop of one of its operations. -/
abbrev Ended := Host.Outcome (State × Result) Fault Refusal

/-- The non-OK result a response hands on, with the same error value (spec/43_driver_sequences.md R130). -/
def Response.failure : Response → Option Result
  | .invalidInputData => some .invalidInputData
  | .busError e => some (.busError e)
  | .unanswered | .val _ | .byte _ | .hour _ _ | .val9 _ | .done | .buf _ => none

/-- One operation of a pseudo-operation: time passes, the operation runs whole, and a status that is not OK
ends the pseudo-operation there, with nothing undone (spec/43_driver_sequences.md R130). -/
def issue (i : Instr) (s : State) (andThen : Response → State → Ended) : Ended :=
  match exec i s.timePasses with
  | .next t =>
    match t.resp.failure with
    | some r => .next (t, r)
    | none => andThen t.resp t
  | .fault f => .fault f
  | .refused r => .refused r

/-- Read one register and decode it as packed BCD. -/
def getBcd (a : Byte) (result : BitVec 8 → Result) (s : State) : Ended :=
  issue (.rdReg a) s fun r t =>
  issue (.bcdDec r.byteField) t fun v u => .next (u, result v.valField)

/-- `zext_9(BCD.DEC(byte)) + 1` (spec/43_driver_sequences.md R134, R148). -/
def weekdayOf (v : BitVec 8) : BitVec 9 := v.zeroExtend 9 + 1

/-- `2000 + BCD.DEC(byte)` on 12 bits (spec/43_driver_sequences.md R137, R148). -/
def yearOf (v : BitVec 8) : BitVec 12 := 2000 + v.zeroExtend 12

/-- GET_SECONDS (spec/43_driver_sequences.md R131). -/
def getSeconds (s : State) : Ended := getBcd 0x00 .number s

/-- GET_MINUTES (spec/43_driver_sequences.md R132). -/
def getMinutes (s : State) : Ended := getBcd 0x01 .number s

/-- GET_HOURS: the tagged hour value, not converted (spec/43_driver_sequences.md R133). -/
def getHours (s : State) : Ended :=
  issue (.rdReg 0x02) s fun r t =>
  issue (.hourDec r.byteField) t fun h u => .next (u, .hour h.tagField h.valField)

/-- GET_WEEKDAY (spec/43_driver_sequences.md R134). -/
def getWeekday (s : State) : Ended := getBcd 0x03 (fun v => .weekday (weekdayOf v)) s

/-- GET_DAY (spec/43_driver_sequences.md R135). -/
def getDay (s : State) : Ended := getBcd 0x04 .number s

/-- GET_MONTH (spec/43_driver_sequences.md R136). -/
def getMonth (s : State) : Ended := getBcd 0x05 .number s

/-- GET_YEAR (spec/43_driver_sequences.md R137). -/
def getYear (s : State) : Ended := getBcd 0x06 (fun v => .year (yearOf v)) s

/-- GET_TIME: one burst over SEC, MIN, HOUR (spec/43_driver_sequences.md R138). -/
def getTime (s : State) : Ended :=
  issue (.rdBurst 0x00 4) s fun b s₁ =>
  issue (.bcdDec (b.bufField 1)) s₁ fun second s₂ =>
  issue (.bcdDec (b.bufField 2)) s₂ fun minute s₃ =>
  issue (.hourDec (b.bufField 3)) s₃ fun h s₄ =>
  issue (.hourTo24 h.tagField h.valField) s₄ fun hour s₅ =>
  .next (s₅, .time hour.val9Field minute.valField second.valField)

/-- GET_DATE: one burst over DOM, MON, YEAR (spec/43_driver_sequences.md R139). -/
def getDate (s : State) : Ended :=
  issue (.rdBurst 0x04 4) s fun b s₁ =>
  issue (.bcdDec (b.bufField 1)) s₁ fun day s₂ =>
  issue (.bcdDec (b.bufField 2)) s₂ fun month s₃ =>
  issue (.bcdDec (b.bufField 3)) s₃ fun year s₄ =>
  .next (s₄, .date (yearOf year.valField) month.valField day.valField)

/-- GET_DATETIME: one burst over the whole clock block (spec/43_driver_sequences.md R140). -/
def getDatetime (s : State) : Ended :=
  issue (.rdBurst 0x00 8) s fun b s₁ =>
  issue (.bcdDec (b.bufField 1)) s₁ fun second s₂ =>
  issue (.bcdDec (b.bufField 2)) s₂ fun minute s₃ =>
  issue (.hourDec (b.bufField 3)) s₃ fun h s₄ =>
  issue (.hourTo24 h.tagField h.valField) s₄ fun hour s₅ =>
  issue (.bcdDec (b.bufField 4)) s₅ fun weekday s₆ =>
  issue (.bcdDec (b.bufField 5)) s₆ fun day s₇ =>
  issue (.bcdDec (b.bufField 6)) s₇ fun month s₈ =>
  issue (.bcdDec (b.bufField 7)) s₈ fun year s₉ =>
  .next (s₉, .dateTime (yearOf year.valField) month.valField day.valField (weekdayOf weekday.valField)
    hour.val9Field minute.valField second.valField)

/-- WRITE_ENABLE: CTR2 <- 0x80, then CTR1 <- 0x84 (spec/43_driver_sequences.md R141). -/
def writeEnable (s : State) : Ended :=
  issue (.wrReg 0x10 0x80) s fun _ t =>
  issue (.wrReg 0x0F 0x84) t fun _ u => .next (u, .done)

/-- WRITE_DISABLE: CTR1 <- 0, then CTR2 <- 0, in one burst (spec/43_driver_sequences.md R142). -/
def writeDisable (s : State) : Ended :=
  issue (.wrBurst [0x0F, 0x00, 0x00]) s fun _ t => .next (t, .done)

/-- TRIM_CLEAR: TRIM <- 0 (spec/43_driver_sequences.md R143). -/
def trimClear (s : State) : Ended :=
  issue (.wrReg 0x12 0x00) s fun _ t => .next (t, .done)

/-- The write-sequence state, a local of SET_DATETIME (spec/43_driver_sequences.md R146). -/
inductive WriteSeq where
  | idle
  | writeEnabled
deriving DecidableEq, Repr

/-- The four parts of the write sequence of SET_DATETIME (spec/43_driver_sequences.md R144). -/
inductive WritePart where
  | enable
  | payload (bytes : List Byte)
  | disable
  | trimClear
deriving DecidableEq, Repr

/-- The table of spec/43_driver_sequences.md R146: the state after a part that returned OK. -/
def WriteSeq.after : WriteSeq → WritePart → WriteSeq
  | .idle, .enable => .writeEnabled
  | .writeEnabled, .disable => .idle
  | q, _ => q

/-- One part of the write sequence. -/
def WritePart.run : WritePart → State → Ended
  | .enable, s => writeEnable s
  | .payload bytes, s => issue (.wrBurst bytes) s fun _ t => .next (t, .done)
  | .disable, s => writeDisable s
  | .trimClear, s => Sys2Proof.Machine.trimClear s

/-- The parts in order, from write-sequence state `q`: the first that fails ends the sequence and its state is
discarded (`none`) (spec/43_driver_sequences.md R130, R144, R146). -/
def runParts : List WritePart → WriteSeq → State → Host.Outcome (State × Result × Option WriteSeq) Fault Refusal
  | [], q, s => .next (s, .done, some q)
  | p :: ps, q, s =>
    match p.run s with
    | .next (t, r) => if r.st = .ok then runParts ps (q.after p) t else .next (t, r, none)
    | .fault f => .fault f
    | .refused r => .refused r

/-- The parts of SET_DATETIME for a payload (spec/43_driver_sequences.md R144). -/
def setParts (payload : List Byte) : List WritePart :=
  [.enable, .payload payload, .disable, .trimClear]

/-- A pseudo-operation made of parts returns what they return. -/
def endParts (o : Host.Outcome (State × Result × Option WriteSeq) Fault Refusal) : Ended :=
  match o with
  | .next (t, r, _) => .next (t, r)
  | .fault f => .fault f
  | .refused r => .refused r

/-- The years SET_DATETIME accepts (spec/43_driver_sequences.md R144, spec/60_exceptions.md R161). -/
def yearInWindow (year : BitVec 16) : Bool := decide (2000 ≤ year.toNat) && decide (year.toNat ≤ 2100)

/-- `year - 2000`, 0 to 100 for a year in the window (spec/43_driver_sequences.md R148). -/
def yearOffset (year : BitVec 16) : Byte := BitVec.ofNat 8 (year.toNat - 2000)

/-- SET_DATETIME (spec/43_driver_sequences.md R144): the year check, the hour's encoding, the payload, then the
write sequence. The weekday is stored raw. -/
def setDatetime (year : BitVec 16) (month day weekday hour minute second : Byte) (s : State) : Ended :=
  if yearInWindow year then
    issue (.hourEnc .h24 hour) s fun h s₁ =>
    issue (.bcdEnc second) s₁ fun sec s₂ =>
    issue (.bcdEnc minute) s₂ fun min s₃ =>
    issue (.bcdEnc day) s₃ fun dom s₄ =>
    issue (.bcdEnc month) s₄ fun mon s₅ =>
    issue (.bcdEnc (yearOffset year)) s₅ fun yr s₆ =>
    endParts (runParts
      (setParts [0x00, sec.byteField, min.byteField, h.byteField, weekday, dom.byteField, mon.byteField,
        yr.byteField]) .idle s₆)
  else .next (s, .invalidInputData)

/-- The nine fields with a setter that is present and not supported (spec/43_driver_sequences.md R145). -/
inductive Field where
  | seconds | minutes | hours | weekday | day | month | year | date | time
deriving DecidableEq, Repr

/-- SET_<field>: Unsupported at once, no frame, no state change; the operand is ignored
(spec/43_driver_sequences.md R145, spec/60_exceptions.md R163). -/
def setField (_field : Field) (_operand : List Byte) (s : State) : Ended :=
  .next (s, .unsupported)

end Sys2Proof.Machine
end

