-- ==== Sys2Proof/Safety.lean ====
section
/-! DEFINITION. The terms claims use: the invariant of the state, the two kinds of operation, the frame an
operation sends, and the premises about the transport and the timekeeper. -/

namespace Sys2Proof.Machine

/-- The state's invariant: `BUF` has `BUF_MAX` elements and `LEN <= BUF_MAX`
(spec/10_state.md R10, R11, R29). -/
abbrev State.Inv (s : State) : Prop := s.buf.length = Config.bufMax ∧ s.len ≤ Config.bufMax

/-- The codec operations (spec/30_encoding.md R70: bit 3 of the opcode is 0); the others are transfers. -/
def isCodec : Instr → Bool
  | .bcdDec _ | .bcdEnc _ | .hourDec _ | .hourEnc _ _ | .hourTo24 _ _ => true
  | .wrReg _ _ | .wrBurst _ | .rdReg _ | .rdBurst _ _ => false

/-- The frames an operation sends: one for a transfer, none for a codec operation
(spec/30_encoding.md R65, R66, spec/42_sequencer.md R118). -/
def framesOf : Instr → List Frame
  | .bcdDec _ | .bcdEnc _ | .hourDec _ | .hourEnc _ _ | .hourTo24 _ _ => []
  | .wrReg a d => [.w Config.devAddr [a, d]]
  | .wrBurst bytes => [.w Config.devAddr bytes]
  | .rdReg a => [.wr Config.devAddr a 1]
  | .rdBurst a len => [.wr Config.devAddr a (len - 1)]

/-- The addresses a successful operation writes data bytes to, in order (spec/42_sequencer.md R117). -/
def writtenAddresses : Instr → List Byte
  | .wrReg a _ => [effectiveAddress a 1]
  | .wrBurst (a :: data) => (List.range data.length).map fun j => effectiveAddress a (j + 1)
  | .wrBurst [] | .bcdDec _ | .bcdEnc _ | .hourDec _ | .hourEnc _ _ | .hourTo24 _ _ | .rdReg _
  | .rdBurst _ _ => []

/-- The registers after the data bytes are written one by one from address `a`, each through the gate as the
earlier ones left it (spec/20_memory.md R41, R46). -/
def writeRun (a : Byte) : List Byte → Regs → Regs
  | [], r => r
  | d :: ds, r => writeRun (a + 1) ds (r.write a d)

/-- The value of a packed-BCD byte, read from its bit slices: `T*10 + U` (spec/30_encoding.md R60). -/
def bcdValue (b : Byte) : Nat := (b.extractLsb 7 4).toNat * 10 + (b.extractLsb 3 0).toNat

/-- The 24-hour number of an hour byte: HOUR.DEC, then HOUR.TO24 (spec/41_hour_codec.md R100, R102). -/
def hourNumber (b : Byte) : Nat :=
  if b.getLsbD 7 then bcdValue (b &&& 0x7F)
  else if b.getLsbD 5 then bcdValue (b &&& 0x5F) + 12
  else bcdValue (b &&& 0x5F)

/-- The seven bytes of the clock block in address order (spec/20_memory.md R31). -/
def ClockBlock.toList (c : ClockBlock) : List Byte := [c.sec, c.min, c.hour, c.dow, c.dom, c.mon, c.year]

/-- WR.REG for each data byte in turn, at consecutive addresses, with no step of the timekeeper in between
(spec/42_sequencer.md R115). -/
def singleWrites (a : Byte) : List Byte → State → Host.Outcome State Fault Refusal
  | [], s => .next s
  | d :: ds, s =>
    match exec (.wrReg a d) s with
    | .next t => singleWrites (a + 1) ds t
    | .fault f => .fault f
    | .refused r => .refused r

/-- The two states differ at most in `BUF`, `LEN` and `AP`. -/
def SameButBuffer (s t : State) : Prop := { s with buf := t.buf, len := t.len, ap := t.ap } = t

/-- The two outcomes are of one kind, and two next states differ at most in `BUF`, `LEN` and `AP`. -/
def AgreeButBuffer : Host.Outcome State Fault Refusal → Host.Outcome State Fault Refusal → Prop
  | .next t, .next u => SameButBuffer t u
  | .fault f, .fault g => f = g
  | .refused p, .refused q => p = q
  | _, _ => False

/-- A getter that reads the mapped register `x` with one `WR` frame and gives the result that `shows` says of
the byte, or hands on the transport's error (spec/43_driver_sequences.md R130). Time passes before the
operation. -/
def ReadsRegister (op : State → Ended) (x : Reg) (shows : Byte → Result → Prop) : Prop :=
  ∀ s : State,
    (s.timePasses.verdict = some .ok → ∃ t r, op s = .next (t, r) ∧ shows (s.timePasses.reg.get x) r ∧
      t.frames = s.frames ++ [.wr Config.devAddr x.addr 1]) ∧
    (∀ e, s.timePasses.verdict = some (.err e) → ∃ t, op s = .next (t, .busError e) ∧
      t.frames = s.frames ++ [.wr Config.devAddr x.addr 1])

/-- The clock block SET_DATETIME writes: the hour in 24-hour layout, the weekday raw
(spec/43_driver_sequences.md R144). -/
def newClock (year : BitVec 16) (month day weekday hour minute second : Byte) : ClockBlock where
  sec := bcdEncode second
  min := bcdEncode minute
  hour := bcdEncode hour ||| 0x80
  dow := weekday
  dom := bcdEncode day
  mon := bcdEncode month
  year := bcdEncode (yearOffset year)

/-- The five frames of SET_DATETIME for a clock block (spec/43_driver_sequences.md R144). -/
def setFrames (c : ClockBlock) : List Frame :=
  [.w Config.devAddr [0x10, 0x80], .w Config.devAddr [0x0F, 0x84], .w Config.devAddr (0x00 :: c.toList),
   .w Config.devAddr [0x0F, 0x00, 0x00], .w Config.devAddr [0x12, 0x00]]

/-- The registers after SET_DATETIME failed at frame `n` (from 0), with `old` before it and `new` the clock block
it writes: the table of spec/60_exceptions.md R170. -/
def FailedSetRow (n : Nat) (old now : Regs) (new : ClockBlock) : Prop :=
  match n with
  | 0 => (now.ctr2 = old.ctr2 ∨ now.ctr2 = 0x80) ∧ now.ctr1 = old.ctr1 ∧ now.clock = old.clock ∧ now.trim = old.trim
  | 1 => now.ctr2 = 0x80 ∧ (now.ctr1 = old.ctr1 ∨ now.ctr1 = 0x84) ∧ now.clock = old.clock ∧ now.trim = old.trim
  | 2 => now.ctr2 = 0x80 ∧ now.ctr1 = 0x84 ∧ now.trim = old.trim ∧
      ∃ k ≤ 7, now.clock.toList = new.toList.take k ++ old.clock.toList.drop k
  | 3 => ((now.ctr1 = 0x84 ∧ now.ctr2 = 0x80) ∨ (now.ctr1 = 0x00 ∧ now.ctr2 = 0x80) ∨
      (now.ctr1 = 0x00 ∧ now.ctr2 = 0x00)) ∧ now.clock = new ∧ now.trim = old.trim
  | 4 => now.ctr2 = 0x00 ∧ now.ctr1 = 0x00 ∧ now.clock = new ∧ (now.trim = old.trim ∨ now.trim = 0x00)
  | _ => False

/-- The timekeeper does not step before the next `n` operations. -/
def State.still (n : Nat) (s : State) : Prop := s.ticks.take n = List.replicate n 0

/-- The transport answers ok to the next `n` frames. -/
def State.okFor (n : Nat) (s : State) : Prop := s.answers.take n = List.replicate n (some Verdict.ok)

/-- A safe step: the machine does not stop. -/
def StepSafe (s : State) : Prop := ∃ t, step s = .next t

end Sys2Proof.Machine
end

