-- ==== Sys2Proof/Certificates/Slice0/Obligations.lean ====
section
/-! DEFINITION. The statements about the block. A docstring names the rule of spec/ each one formalises; where
it rests on a decision D<n> of spec/92_eei_decisions.md or on an entry of the assumption log, it says so. -/

open Sys2Proof Sys2Proof.Machine

/-! ## Encodings and the step -/

/-- Command bytes written out from the spec's opcode map (spec/30_encoding.md section 3, decision D3) decode to
the operations they stand for. -/
def Obligations.SpecWordsDecode : Prop :=
  decode [0x01, 0x59] = .command (.bcdDec 0x59) [] ∧
  decode [0x02, 0x3B] = .command (.bcdEnc 59) [] ∧
  decode [0x04, 0x02, 0x0B] = .command (.hourEnc .pm 11) [] ∧
  decode [0x05, 0x00, 0x17] = .command (.hourTo24 .h24 23) [] ∧
  decode [0x08, 0x10, 0x80] = .command (.wrReg 0x10 0x80) [] ∧
  decode [0x09, 0x03, 0x0F, 0x00, 0x00, 0x0A] = .command (.wrBurst [0x0F, 0x00, 0x00]) [0x0A] ∧
  decode [0x0B, 0x04, 0x07] = .command (.rdBurst 0x07 4) []

/-- Decoding the command bytes of any well-formed instruction, whatever bytes follow, gives the instruction and
the bytes that follow (spec/30_encoding.md sections 3 and 5, decision D3). -/
def Obligations.DecodeOfEncode : Prop :=
  ∀ (i : Instr) (rest : List Byte), i.wf = true → decode (encode i ++ rest) = .command i rest

/-- The bytes the decoder takes are exactly the encoding of what it reads: every word has one meaning
(spec/30_encoding.md sections 3 and 5, decision D3). -/
def Obligations.EncodeOfDecode : Prop :=
  ∀ (bytes : List Byte) (i : Instr) (rest : List Byte),
    decode bytes = .command i rest → bytes = encode i ++ rest

/-- Opcode bytes 0x00, 0x06, 0x07, 0x0C to 0xFF are refused, whatever follows them
(spec/30_encoding.md section 4, decision D3). -/
def Obligations.ReservedOpcodesRefused : Prop :=
  ∀ (s : State) (op : Byte) (rest : List Byte),
    (op.toNat = 0x00 ∨ op.toNat = 0x06 ∨ op.toNat = 0x07 ∨ 0x0C ≤ op.toNat) → s.host = op :: rest →
    step s = .refused (.reservedOpcode op)

/-- A tag byte above `0b10` is refused as an operand of HOUR.ENC and HOUR.TO24, and HOUR.DEC never gives a
reserved tag (spec/30_encoding.md section 4, decision D4). -/
def Obligations.ReservedTagsRefused : Prop :=
  (∀ (s : State) (op t v : Byte) (rest : List Byte), op = 0x04 ∨ op = 0x05 → 3 ≤ t.toNat →
    s.host = op :: t :: v :: rest → step s = .refused (.reservedTag t)) ∧
  (∀ (s : State) (b : Byte), ∃ tag v, exec (.hourDec b) s = .next { s with resp := .hour tag v } ∧
    tag.code.toNat < 3)

/-- A buffer length of 0 or above BUF_MAX is refused by both burst operations (spec/30_encoding.md section 4,
decision D19). -/
def Obligations.BufferLengthRefused : Prop :=
  (∀ (s : State) (bytes : List Byte), bytes.length = 0 ∨ Config.bufMax < bytes.length →
    exec (.wrBurst bytes) s = .refused (.bufferLength bytes.length)) ∧
  (∀ (s : State) (a : Byte) (len : Nat), len = 0 ∨ Config.bufMax < len →
    exec (.rdBurst a len) s = .refused (.bufferLength len))

/-- A step runs the command the host presents: time passes, the command's bytes are taken, the operation runs;
with no command the block waits (the model's host stream, log 1 and log 6; spec/00_scope.md section 6,
spec/70_reset_and_hazards.md section 1). -/
def Obligations.StepRunsDecodedCommand : Prop :=
  (∀ (s : State) (i : Instr) (rest : List Byte), decode s.host = .command i rest →
    step s = exec i { s.timePasses with host := rest }) ∧
  (∀ s : State, s.host = [] → step s = .next s.timePasses)

/-- When time passes the timekeeper steps some number of times and can change the clock block alone: CTR1, CTR2,
TRIM, BUF, LEN, AP and everything of the host and the transport stay (spec/20_memory.md section 8, decision
D21; log 6). -/
def Obligations.TimekeeperChangesClockBlockOnly : Prop :=
  ∀ s : State, ∃ n : Nat, ∃ c : ClockBlock, s.timePasses.reg = s.reg.tickN n ∧
    s.timePasses.reg = { s.reg with clock := c } ∧
    s.timePasses.buf = s.buf ∧ s.timePasses.len = s.len ∧ s.timePasses.ap = s.ap ∧ s.timePasses.host = s.host ∧
    s.timePasses.resp = s.resp ∧ s.timePasses.frames = s.frames ∧ s.timePasses.answers = s.answers

/-! ## The codecs -/

/-- BCD.DEC completes on every byte and every state with `val = T*10 + U`, at most 165, and writes nothing but
its response (spec/40_bcd_codec.md BCD.DEC, decision D7). -/
def Obligations.BcdDecResult : Prop :=
  ∀ (b : Byte) (s : State), ∃ v, exec (.bcdDec b) s = .next { s with resp := .val v } ∧
    v.toNat = (b.extractLsb 7 4).toNat * 10 + (b.extractLsb 3 0).toNat ∧ v.toNat ≤ 165

/-- BCD.ENC completes on every value and every state: the high nibble is `(v / 10) % 16`, the low nibble
`v % 10`, and nothing but the response is written (spec/40_bcd_codec.md BCD.ENC, decisions D5, D6). -/
def Obligations.BcdEncResult : Prop :=
  ∀ (v : Byte) (s : State), ∃ y, exec (.bcdEnc v) s = .next { s with resp := .byte y } ∧
    (y.extractLsb 7 4).toNat = v.toNat / 10 % 16 ∧ (y.extractLsb 3 0).toNat = v.toNat % 10

/-- BCD.DEC after BCD.ENC gives the value back exactly for 0 to 159, and BCD.ENC after BCD.DEC gives the byte
back exactly where the low nibble is a digit (spec/40_bcd_codec.md Laws; the source's law covers 0 to 99, the
rest is the spec's own derivation). -/
def Obligations.BcdRoundTrip : Prop :=
  (∀ (v : Byte) (s : State), ∃ y z, exec (.bcdEnc v) s = .next { s with resp := .byte y } ∧
    exec (.bcdDec y) { s with resp := .byte y } = .next { s with resp := .val z } ∧
    (z = v ↔ v.toNat ≤ 159)) ∧
  (∀ (b : Byte) (s : State), ∃ v z, exec (.bcdDec b) s = .next { s with resp := .val v } ∧
    exec (.bcdEnc v) { s with resp := .val v } = .next { s with resp := .byte z } ∧
    (z = b ↔ (b.extractLsb 3 0).toNat ≤ 9))

/-- HOUR.DEC completes on every byte: bit 7 set is 24-hour with bit 7 alone masked; otherwise bit 5 set is PM
and clear is AM, with both bits masked; nothing but the response is written. Its command is the opcode byte 0x03 and
the operand (spec/41_hour_codec.md R100). -/
def Obligations.HourDecResult : Prop :=
  ∀ (b : Byte) (s : State), decode [0x03, b] = .command (.hourDec b) [] ∧ ∃ tag v, exec (.hourDec b) s = .next { s with resp := .hour tag v } ∧
    (b.getLsbD 7 = true → tag = .h24 ∧ v.toNat = bcdValue (b &&& 0x7F)) ∧
    (b.getLsbD 7 = false → b.getLsbD 5 = true → tag = .pm ∧ v.toNat = bcdValue (b &&& 0x5F)) ∧
    (b.getLsbD 7 = false → b.getLsbD 5 = false → tag = .am ∧ v.toNat = bcdValue (b &&& 0x5F))

/-- HOUR.ENC completes on every operand: in range it returns the BCD byte with bit 7 set for H24 and bit 5 set
for PM; out of range it returns InvalidInputData; nothing but the response is written either way. Its command is
the opcode byte 0x04, the tag byte, the value byte; a reserved tag is refused (spec/41_hour_codec.md R101). -/
def Obligations.HourEncResult : Prop :=
  ∀ (v : Byte) (s : State),
    (∀ tag : HourTag, decode [0x04, tag.code.zeroExtend 8, v] = .command (.hourEnc tag v) []) ∧
    (∀ t : Byte, 3 ≤ t.toNat → decode [0x04, t, v] = .rejected (.reservedTag t)) ∧
    (v.toNat ≤ 23 → ∃ e, exec (.bcdEnc v) s = .next { s with resp := .byte e } ∧
      exec (.hourEnc .h24 v) s = .next { s with resp := .byte (e ||| 0x80) }) ∧
    (23 < v.toNat → exec (.hourEnc .h24 v) s = .next { s with resp := .invalidInputData }) ∧
    (1 ≤ v.toNat → v.toNat ≤ 12 → ∃ e, exec (.bcdEnc v) s = .next { s with resp := .byte e } ∧
      exec (.hourEnc .pm v) s = .next { s with resp := .byte (e ||| 0x20) } ∧
      exec (.hourEnc .am v) s = .next { s with resp := .byte e }) ∧
    (v.toNat < 1 ∨ 12 < v.toNat → exec (.hourEnc .pm v) s = .next { s with resp := .invalidInputData } ∧
      exec (.hourEnc .am v) s = .next { s with resp := .invalidInputData })

/-- HOUR.TO24 completes on every operand: H24 and AM pass through, PM adds 12 exactly on 9 bits; nothing but the
response is written (spec/41_hour_codec.md HOUR.TO24, decision D8). -/
def Obligations.HourTo24Result : Prop :=
  ∀ (v : Byte) (s : State), ∃ x y z : BitVec 9,
    exec (.hourTo24 .h24 v) s = .next { s with resp := .val9 x } ∧ x.toNat = v.toNat ∧
    exec (.hourTo24 .am v) s = .next { s with resp := .val9 y } ∧ y.toNat = v.toNat ∧
    exec (.hourTo24 .pm v) s = .next { s with resp := .val9 z } ∧ z.toNat = v.toNat + 12

/-- Every valid hour value encodes and decodes back to itself, tag and value; the other way does not hold in
general: 0x00 decodes to AM(0), which does not encode (spec/41_hour_codec.md R103). -/
def Obligations.HourRoundTrip : Prop :=
  (∀ (tag : HourTag) (v : Byte) (s : State),
    (tag = .h24 ∧ v.toNat ≤ 23) ∨ (tag ≠ .h24 ∧ 1 ≤ v.toNat ∧ v.toNat ≤ 12) →
    ∃ y, exec (.hourEnc tag v) s = .next { s with resp := .byte y } ∧
      exec (.hourDec y) { s with resp := .byte y } = .next { s with resp := .hour tag v }) ∧
  (∀ s : State, exec (.hourDec 0x00) s = .next { s with resp := .hour .am 0 } ∧
    exec (.hourEnc .am 0) { s with resp := .hour .am 0 } = .next { s with resp := .invalidInputData })

/-- The bytes of the three variants are told apart by their mode bits: H24 bytes have bit 7 set, PM bytes bit 7
clear and bit 5 set, AM bytes both clear (spec/41_hour_codec.md Laws; the spec's own derivation). -/
def Obligations.HourImagesDisjoint : Prop :=
  ∀ (tag : HourTag) (v y : Byte) (s : State), exec (.hourEnc tag v) s = .next { s with resp := .byte y } →
    (y.getLsbD 7 = true ↔ tag = .h24) ∧ (tag ≠ .h24 → (y.getLsbD 5 = true ↔ tag = .pm))

/-- A codec operation touches no register, buffer element, pointer or frame: only its response changes
(spec/20_memory.md section 1, spec/10_state.md section 2, decision D2). -/
def Obligations.CodecFrame : Prop :=
  ∀ (i : Instr) (s : State), isCodec i = true → ∃ r, exec i s = .next { s with resp := r }

/-! ## The sequencer -/

/-- WR.REG on a frame the transport carried: the buffer holds address and data, AP is one past the address, the
byte goes through RegWrite, the status is OK, one frame is sent, nothing else changes
(spec/42_sequencer.md WR.REG; the gate of RegWrite is decisions D10 to D14). -/
def Obligations.WrRegResult : Prop :=
  ∀ (a d : Byte) (s : State), s.verdict = some .ok →
    exec (.wrReg a d) s = .next { s.asked (.w Config.devAddr [a, d]) with
      buf := [a, d] ++ s.buf.drop 2, len := 2, ap := a + 1, reg := s.reg.write a d, resp := .done }

/-- Which registers a carried WR.REG changes: a clock-block address takes the byte exactly when WE1, WE3 and WE2
are all 1, a control address always takes it, an unmapped address changes nothing, and every other address
reads as before; dropped or not, the status is OK (spec/20_memory.md sections 6 and 7, decisions D10 to D14). -/
def Obligations.RegisterWriteRule : Prop :=
  ∀ (a d : Byte) (s : State), s.verdict = some .ok → ∃ t, exec (.wrReg a d) s = .next t ∧ t.resp = .done ∧
    (a.toNat ≤ 0x06 → s.reg.ctr2.getLsbD 7 = true ∧ s.reg.ctr1.getLsbD 7 = true ∧ s.reg.ctr1.getLsbD 2 = true →
      t.reg.read? a = some d) ∧
    (a.toNat ≤ 0x06 → ¬(s.reg.ctr2.getLsbD 7 = true ∧ s.reg.ctr1.getLsbD 7 = true ∧ s.reg.ctr1.getLsbD 2 = true) →
      t.reg = s.reg) ∧
    (a = 0x0F ∨ a = 0x10 ∨ a = 0x12 → t.reg.read? a = some d) ∧
    (0x06 < a.toNat → a ≠ 0x0F → a ≠ 0x10 → a ≠ 0x12 → t.reg = s.reg) ∧
    (∀ x, x ≠ a → t.reg.read? x = s.reg.read? x)

/-- WR.BURST on a frame the transport carried, for every buffer of 1 to BUF_MAX bytes: the data bytes are written
one by one in order, each through the gate as the earlier ones left it, AP ends one past the last, the status
is OK, one frame is sent, nothing else changes (spec/42_sequencer.md WR.BURST, spec/20_memory.md section 7,
decisions D9, D10 to D15). -/
def Obligations.WrBurstResult : Prop :=
  ∀ (a : Byte) (data : List Byte) (s : State), lenOk (data.length + 1) = true → s.verdict = some .ok →
    exec (.wrBurst (a :: data)) s = .next { s.asked (.w Config.devAddr (a :: data)) with
      buf := (a :: data) ++ s.buf.drop (data.length + 1), len := data.length + 1,
      ap := a + BitVec.ofNat 8 data.length, reg := writeRun a data s.reg, resp := .done }

/-- RD.REG on a frame the transport carried: the byte returned is the register's at a mapped address and an
unspecified one elsewhere; it stands in BUF[1], the address in BUF[0]; no register changes
(spec/42_sequencer.md RD.REG, spec/20_memory.md section 6, decisions D10, D23). -/
def Obligations.RdRegResult : Prop :=
  ∀ (a : Byte) (s : State), s.verdict = some .ok → ∃ v n,
    exec (.rdReg a) s = .next { s.asked (.wr Config.devAddr a 1) with
      buf := [a, v] ++ s.buf.drop 2, len := 2, ap := a + 1, resp := .byte v, draws := n } ∧
    (∀ x, s.reg.read? a = some x → v = x)

/-- RD.BURST on a frame the transport carried, for every length 1 to BUF_MAX: L-1 bytes, all from the one register
state before the operation, exact at every mapped address; the buffer and the response hold the start address
and the bytes, AP ends one past the last, no register changes (spec/42_sequencer.md RD.BURST,
spec/20_memory.md sections 5, 6 and 8, decisions D9, D10, D23). -/
def Obligations.RdBurstResult : Prop :=
  ∀ (a : Byte) (len : Nat) (s : State), lenOk len = true → s.verdict = some .ok → ∃ vs n,
    vs.length = len - 1 ∧
    exec (.rdBurst a len) s = .next { s.asked (.wr Config.devAddr a (len - 1)) with
      buf := (a :: vs) ++ s.buf.drop len, len := len, ap := a + BitVec.ofNat 8 (len - 1),
      resp := .buf (a :: vs), draws := n } ∧
    (∀ i, 1 ≤ i → i < len → ∀ x, s.reg.read? (effectiveAddress a i) = some x → vs[i - 1]? = some x)

/-- A write frame that failed: BUF and LEN are set, some prefix of the data bytes, possibly none or all, was
written through the gate in order, AP is unspecified, and BusError carries the transport's error unchanged
(spec/42_sequencer.md Common rules, decision D16). The number of bytes is a free value: any the spec allows. -/
def Obligations.FailedWriteStoresPrefix : Prop :=
  ∀ (a : Byte) (data : List Byte) (s : State) (e : BusErr), lenOk (data.length + 1) = true →
    s.verdict = some (.err e) → ∃ k x n, k ≤ data.length ∧
    exec (.wrBurst (a :: data)) s = .next { s.asked (.w Config.devAddr (a :: data)) with
      buf := (a :: data) ++ s.buf.drop (data.length + 1), len := data.length + 1, ap := x,
      reg := writeRun a (data.take k) s.reg, resp := .busError e, draws := n } ∧
    (∀ d, data = [d] → exec (.wrReg a d) s = exec (.wrBurst (a :: data)) s)

/-- A read frame that failed: no register changes, BUF[0] and LEN are set, the data elements of BUF and AP are
unspecified, and BusError carries the transport's error unchanged (spec/42_sequencer.md Common rules,
decision D16). -/
def Obligations.FailedReadKeepsRegisters : Prop :=
  ∀ (a : Byte) (len : Nat) (s : State) (e : BusErr), lenOk len = true → s.verdict = some (.err e) →
    (∃ vs x n, vs.length = len - 1 ∧
      exec (.rdBurst a len) s = .next { s.asked (.wr Config.devAddr a (len - 1)) with
        buf := (a :: vs) ++ s.buf.drop len, len := len, ap := x, resp := .busError e, draws := n }) ∧
    (∃ v x n, exec (.rdReg a) s = .next { s.asked (.wr Config.devAddr a 1) with
        buf := [a, v] ++ s.buf.drop 2, len := 2, ap := x, resp := .busError e, draws := n })

/-- A transfer whose transport never answers does not end: the one fault of the model
(spec/93_implementation_defined.md U7). -/
def Obligations.SilentTransportStops : Prop :=
  ∀ (i : Instr) (s : State), isCodec i = false → i.wf = true → s.verdict = none →
    exec i s = .fault .transportSilent

/-- Every well-formed operation completes: a codec operation in every state, a transfer in every state whose
transport answers at all (spec/42_sequencer.md Common rules, spec/60_exceptions.md section 1). -/
def Obligations.EveryOperationCompletes : Prop :=
  ∀ (i : Instr) (s : State), i.wf = true → isCodec i = true ∨ s.verdict ≠ none → ∃ t, exec i s = .next t

/-- Each operation sends exactly the frames of its rule, one for a transfer and none for a codec operation, and
asks the transport once for each: no retry (spec/42_sequencer.md Common rules, spec/30_encoding.md
section 2). -/
def Obligations.OneFramePerTransfer : Prop :=
  ∀ (i : Instr) (s t : State), exec i s = .next t →
    t.frames = s.frames ++ framesOf i ∧ t.answers = if isCodec i then s.answers else s.answers.tail

/-- The frame of every operation: whatever the transport answers, every address of the register space that is not
among the addresses the operation writes data bytes to reads as before; the elements of BUF from the transfer's
length on keep what they held (the whole of BUF, LEN and AP for a codec operation); the host's pending commands
and the timekeeper's schedule are untouched (spec/42_sequencer.md Addressing, Common rules, decisions D2, D9,
D23). -/
def Obligations.OperationFrame : Prop :=
  ∀ (i : Instr) (s t : State), exec i s = .next t →
    (∀ x, x ∉ writtenAddresses i → t.reg.read? x = s.reg.read? x) ∧
    (isCodec i = false → t.buf.drop t.len = s.buf.drop t.len) ∧
    (isCodec i = true → t.buf = s.buf ∧ t.len = s.len ∧ t.ap = s.ap) ∧
    t.host = s.host ∧ t.ticks = s.ticks

/-- After any transfer, LEN is the length of the buffer it used, at least 1 and at most BUF_MAX, and BUF[0] is the
start address (spec/10_state.md section 2, spec/42_sequencer.md Common rules, decision D2). -/
def Obligations.TransferSetsLength : Prop :=
  ∀ (i : Instr) (s t : State), isCodec i = false → exec i s = .next t →
    1 ≤ t.len ∧ t.len ≤ Config.bufMax ∧
    (∀ a d, i = .wrReg a d → t.len = 2 ∧ t.buf[0]? = some a ∧ t.buf[1]? = some d) ∧
    (∀ bytes, i = .wrBurst bytes → t.len = bytes.length ∧ t.buf.take t.len = bytes) ∧
    (∀ a, i = .rdReg a → t.len = 2 ∧ t.buf[0]? = some a) ∧
    (∀ a len, i = .rdBurst a len → t.len = len ∧ t.buf[0]? = some a)

/-- WR.REG and a burst of one data byte are the same on every piece of state; RD.REG and a burst of length 2
differ in nothing but the form of the response, whose `byte` is `buf[1]` (spec/42_sequencer.md Common rules; the
spec's own derivation). -/
def Obligations.SingleEqualsBurstOfTwo : Prop :=
  (∀ (a d : Byte) (s : State), exec (.wrReg a d) s = exec (.wrBurst [a, d]) s) ∧
  (∀ (a : Byte) (s t : State), exec (.rdReg a) s = .next t → ∃ r,
    exec (.rdBurst a 2) s = .next { t with resp := r } ∧
    (∀ v, t.resp = .byte v → r = .buf [a, v]) ∧ (∀ e, t.resp = .busError e → r = .busError e)) ∧
  (∀ (a : Byte) (s : State), exec (.rdReg a) s = .fault .transportSilent ↔
    exec (.rdBurst a 2) s = .fault .transportSilent)

/-- A burst leaves the same registers as the single writes of its bytes in order, when every transfer succeeds and
the timekeeper does not step in between (spec/42_sequencer.md Common rules; the spec's own derivation). -/
def Obligations.BurstEqualsSingleWrites : Prop :=
  ∀ (a : Byte) (data : List Byte) (s : State), lenOk (data.length + 1) = true → s.okFor (data.length + 1) →
    ∃ t u, exec (.wrBurst (a :: data)) s = .next t ∧ singleWrites a data s = .next u ∧ t.reg = u.reg

/-- A read after a write to the same mapped address, with nothing between, returns the byte written when the
address is not gated or the gate is open (spec/20_memory.md sections 6 and 8; the storage is decision D11). -/
def Obligations.ReadAfterWrite : Prop :=
  ∀ (x : Reg) (d : Byte) (s : State), s.okFor 2 → (x.gated = true → s.reg.gateOpen = true) →
    ∃ t u, exec (.wrReg x.addr d) s = .next t ∧ exec (.rdReg x.addr) t = .next u ∧ u.resp = .byte d

/-- Reads and writes of mapped registers are idempotent: two reads return the same byte and change no register;
writing a byte twice leaves the registers as writing it once does (spec/20_memory.md section 5; the spec's own
derivation, decision D23). -/
def Obligations.AccessesIdempotent : Prop :=
  ∀ (x : Reg) (s : State), s.okFor 2 →
    (∃ t u, exec (.rdReg x.addr) s = .next t ∧ exec (.rdReg x.addr) t = .next u ∧
      t.resp = .byte (s.reg.get x) ∧ u.resp = t.resp ∧ u.reg = s.reg) ∧
    (∀ d, ∃ t u, exec (.wrReg x.addr d) s = .next t ∧ exec (.wrReg x.addr d) t = .next u ∧ u.reg = t.reg)

/-! ## Errors -/

/-- The complete causes of a non-OK status of an operation: InvalidInputData only from HOUR.ENC out of range,
BusError only from a transfer whose transport answered that error (spec/60_exceptions.md section 1). Reads of
malformed content, unmapped addresses, dropped writes and a buffer of length 1 are never errors. -/
def Obligations.CompleteCausesOfErrors : Prop :=
  ∀ (i : Instr) (s t : State), exec i s = .next t →
    (t.resp.st = .invalidInputData ↔ ∃ tag v, i = .hourEnc tag v ∧
      ((tag = .h24 ∧ 23 < v.toNat) ∨ (tag ≠ .h24 ∧ (v.toNat < 1 ∨ 12 < v.toNat)))) ∧
    (∀ e, t.resp = .busError e ↔ isCodec i = false ∧ s.verdict = some (.err e)) ∧
    (t.resp.st = .busError ↔ isCodec i = false ∧ ∃ e, s.verdict = some (.err e)) ∧
    t.resp.st ≠ .unsupported

/-- No outcome of one operation is readable by a later one: an operation does the same whatever the last response
was, so no error is sticky (spec/10_state.md section 6, spec/60_exceptions.md section 5). -/
def Obligations.ResponseNeverRead : Prop :=
  ∀ (i : Instr) (s : State) (r : Response), exec i { s with resp := r } = exec i s

/-- BUF, LEN and AP are never read before they are written: two states that differ at most in them run, for any
number of steps, to the same responses, registers and frames (spec/10_state.md section 3, decision D2; the
spec's own derivation). -/
def Obligations.BufferAndPointerUnobservable : Prop :=
  ∀ (k : Nat) (s t : State), SameButBuffer s t → AgreeButBuffer (core.run k s) (core.run k t)

/-! ## Reset, invariants and whole-machine rules -/

/-- Reset: LEN is 0, every mapped register holds its REG_INIT byte, BUF has BUF_MAX elements; and, the model's
choice (log 11), its own fields are empty: no command waits, no response has been given, no frame has been sent, no
answer and no timekeeper step is scheduled, and no free value has been drawn (spec/10_state.md section 7,
spec/70_reset_and_hazards.md section 1, decision D22). -/
def Obligations.ResetState : Prop :=
  State.reset.len = 0 ∧ (∀ x : Reg, State.reset.reg.get x = Config.regInit x.addr) ∧
  State.reset.buf.length = Config.bufMax ∧ State.reset.host = [] ∧ State.reset.resp = .unanswered ∧
  State.reset.frames = [] ∧ State.reset.answers = [] ∧ State.reset.ticks = [] ∧ State.reset.draws = 0

/-- The invariant holds at reset (spec/10_state.md sections 1 and 7). -/
def Obligations.ResetHasInvariant : Prop := State.reset.Inv

/-- Every step keeps the invariant: BUF has BUF_MAX elements and LEN is at most BUF_MAX
(spec/10_state.md sections 1 and 2). -/
def Obligations.StepKeepsInvariant : Prop :=
  ∀ s t : State, s.Inv → step s = .next t → t.Inv

/-- The clock block is protected: over any step that begins and ends with the gate closed, whatever the command,
the timekeeper alone changes the clock block (spec/20_memory.md section 7, spec/70_reset_and_hazards.md
section 3, decisions D12 to D15; with no command longer than 257 bytes no burst can open the gate, write the
clock block and close the gate again). -/
def Obligations.ClosedGateProtectsClock : Prop :=
  ∀ s t : State, step s = .next t → s.reg.gateOpen = false → t.reg.gateOpen = false →
    t.reg.clock = s.timePasses.reg.clock

/-- Only a write to CTR1 or CTR2 can move the gate: over a step whose command writes to neither address, and over a
step that waits, the gate stays as it was (spec/10_state.md section 5, spec/20_memory.md section 7, decisions
D12, D13, D21). -/
def Obligations.OnlyControlWritesMoveGate : Prop :=
  ∀ s t : State, step s = .next t →
    (∀ i rest, decode s.host = .command i rest →
      Reg.ctr1.addr ∉ writtenAddresses i ∧ Reg.ctr2.addr ∉ writtenAddresses i) →
    t.reg.gateOpen = s.reg.gateOpen

/-! ## The clock-driver sequences -/

/-- GET_SECONDS, GET_MINUTES, GET_DAY and GET_MONTH read one register and return its BCD value
(spec/43_driver_sequences.md R131, R132, R135, R136). -/
def Obligations.BcdGettersReadTheirRegister : Prop :=
  ReadsRegister getSeconds .sec (fun b r => ∃ v, r = .number v ∧ v.toNat = bcdValue b) ∧
  ReadsRegister getMinutes .min (fun b r => ∃ v, r = .number v ∧ v.toNat = bcdValue b) ∧
  ReadsRegister getDay .dom (fun b r => ∃ v, r = .number v ∧ v.toNat = bcdValue b) ∧
  ReadsRegister getMonth .mon (fun b r => ∃ v, r = .number v ∧ v.toNat = bcdValue b)

/-- GET_HOURS returns the tagged hour value of the hour register, not converted
(spec/43_driver_sequences.md R133). -/
def Obligations.GetHoursReturnsTaggedValue : Prop :=
  ReadsRegister getHours .hour (fun b r => ∃ tag v, r = .hour tag v ∧
    (b.getLsbD 7 = true → tag = .h24 ∧ v.toNat = bcdValue (b &&& 0x7F)) ∧
    (b.getLsbD 7 = false → (tag = .pm ↔ b.getLsbD 5 = true) ∧ tag ≠ .h24 ∧ v.toNat = bcdValue (b &&& 0x5F)))

/-- GET_WEEKDAY returns the BCD value of the day-of-week register plus 1, exactly on 9 bits
(spec/43_driver_sequences.md R134). -/
def Obligations.GetWeekdayAddsOne : Prop :=
  ReadsRegister getWeekday .dow (fun b r => ∃ v, r = .weekday v ∧ v.toNat = bcdValue b + 1)

/-- GET_YEAR returns 2000 plus the BCD value of the year register, exactly on 12 bits
(spec/43_driver_sequences.md R137). -/
def Obligations.GetYearAddsBase : Prop :=
  ReadsRegister getYear .year (fun b r => ∃ v, r = .year v ∧ v.toNat = 2000 + bcdValue b)

/-- GET_TIME reads SEC, MIN and HOUR with one frame, all from one register state, and returns the 24-hour number,
minute and second; a transport error is handed on (spec/43_driver_sequences.md R138). -/
def Obligations.GetTimeReadsOneSnapshot : Prop :=
  ∀ s : State, ∀ c, c = s.timePasses.reg.clock →
    (s.timePasses.verdict = some .ok → ∃ t h m sec, getTime s = .next (t, .time h m sec) ∧
      h.toNat = hourNumber c.hour ∧ m.toNat = bcdValue c.min ∧ sec.toNat = bcdValue c.sec ∧
      t.frames = s.frames ++ [.wr Config.devAddr 0x00 3]) ∧
    (∀ e, s.timePasses.verdict = some (.err e) → ∃ t, getTime s = .next (t, .busError e) ∧
      t.frames = s.frames ++ [.wr Config.devAddr 0x00 3])

/-- GET_DATE reads DOM, MON and YEAR with one frame, all from one register state, and returns year, month and day; a
transport error is handed on (spec/43_driver_sequences.md R139). -/
def Obligations.GetDateReadsOneSnapshot : Prop :=
  ∀ s : State, ∀ c, c = s.timePasses.reg.clock →
    (s.timePasses.verdict = some .ok → ∃ t y m d, getDate s = .next (t, .date y m d) ∧
      y.toNat = 2000 + bcdValue c.year ∧ m.toNat = bcdValue c.mon ∧ d.toNat = bcdValue c.dom ∧
      t.frames = s.frames ++ [.wr Config.devAddr 0x04 3]) ∧
    (∀ e, s.timePasses.verdict = some (.err e) → ∃ t, getDate s = .next (t, .busError e) ∧
      t.frames = s.frames ++ [.wr Config.devAddr 0x04 3])

/-- GET_DATETIME reads the whole clock block with one frame, all from one register state, and decodes every field; a
transport error is handed on (spec/43_driver_sequences.md R140). -/
def Obligations.GetDatetimeReadsOneSnapshot : Prop :=
  ∀ s : State, ∀ c, c = s.timePasses.reg.clock →
    (s.timePasses.verdict = some .ok → ∃ t y mo d w h mi sec,
      getDatetime s = .next (t, .dateTime y mo d w h mi sec) ∧
      y.toNat = 2000 + bcdValue c.year ∧ mo.toNat = bcdValue c.mon ∧ d.toNat = bcdValue c.dom ∧
      w.toNat = bcdValue c.dow + 1 ∧ h.toNat = hourNumber c.hour ∧ mi.toNat = bcdValue c.min ∧
      sec.toNat = bcdValue c.sec ∧ t.frames = s.frames ++ [.wr Config.devAddr 0x00 7]) ∧
    (∀ e, s.timePasses.verdict = some (.err e) → ∃ t, getDatetime s = .next (t, .busError e) ∧
      t.frames = s.frames ++ [.wr Config.devAddr 0x00 7])

/-- WRITE_ENABLE, when both frames are carried, leaves CTR2 = 0x80 and CTR1 = 0x84 and the gate open, from any state
and whatever the timekeeper does, with the two frames in order (spec/43_driver_sequences.md Write sequencing;
the open gate is the spec's own derivation from decision D12). -/
def Obligations.WriteEnableOpensGate : Prop :=
  ∀ s : State, s.okFor 2 → ∃ t, writeEnable s = .next (t, .done) ∧
    t.reg.ctr2 = 0x80 ∧ t.reg.ctr1 = 0x84 ∧ t.reg.gateOpen = true ∧ t.reg.trim = s.reg.trim ∧
    t.frames = s.frames ++ [.w Config.devAddr [0x10, 0x80], .w Config.devAddr [0x0F, 0x84]]

/-- WRITE_DISABLE, when its frame is carried, leaves both control registers 0x00 and the gate closed
(spec/43_driver_sequences.md R142). -/
def Obligations.WriteDisableClosesGate : Prop :=
  ∀ s : State, (s.timePasses.verdict = some .ok → ∃ t, writeDisable s = .next (t, .done) ∧
    t.reg = { s.timePasses.reg with ctr1 := 0x00, ctr2 := 0x00 } ∧ t.reg.gateOpen = false ∧ t.ap = 0x11 ∧
    t.frames = s.frames ++ [.w Config.devAddr [0x0F, 0x00, 0x00]]) ∧
    (∀ e, s.timePasses.verdict = some (.err e) → ∃ t, writeDisable s = .next (t, .busError e))

/-- TRIM_CLEAR, when its frame is carried, leaves TRIM = 0x00 and every other register alone, with the gate open or
closed (spec/43_driver_sequences.md Write sequencing; that TRIM is not gated is decision D13). -/
def Obligations.TrimClearIsNotGated : Prop :=
  ∀ s : State, (s.timePasses.verdict = some .ok → ∃ t, trimClear s = .next (t, .done) ∧
    t.reg = { s.timePasses.reg with trim := 0x00 } ∧
    t.frames = s.frames ++ [.w Config.devAddr [0x12, 0x00]]) ∧
    (∀ e, s.timePasses.verdict = some (.err e) → ∃ t, trimClear s = .next (t, .busError e))

/-- SET_DATETIME with a year in 2000 to 2100 and an hour to 23, when all five frames are carried: OK, the five
frames in order, both control registers and TRIM 0x00, the gate closed, whatever the registers held before and
whatever the timekeeper does; and the clock block holds the payload if the timekeeper does not step
(spec/43_driver_sequences.md SET_DATETIME, decision D24; the end state is the spec's own derivation and rests on the
storage and the gate, decisions D11 to D13, log 13 and log 15). -/
def Obligations.SetDatetimeWritesClock : Prop :=
  ∀ (year : BitVec 16) (month day weekday hour minute second : Byte) (s : State),
    2000 ≤ year.toNat → year.toNat ≤ 2100 → hour.toNat ≤ 23 → s.okFor 5 → ∃ t,
    setDatetime year month day weekday hour minute second s = .next (t, .done) ∧
    t.reg.ctr1 = 0x00 ∧ t.reg.ctr2 = 0x00 ∧ t.reg.trim = 0x00 ∧ t.reg.gateOpen = false ∧
    t.frames = s.frames ++ setFrames (newClock year month day weekday hour minute second) ∧
    (s.still 11 → t.reg.clock = newClock year month day weekday hour minute second)

/-- SET_DATETIME fails with InvalidInputData for a year outside 2000 to 2100 or an hour above 23, before any frame
and before any part of the block's state changes (spec/43_driver_sequences.md SET_DATETIME,
spec/60_exceptions.md sections 1 and 3, decision D24). -/
def Obligations.SetDatetimeChecksFirst : Prop :=
  ∀ (year : BitVec 16) (month day weekday hour minute second : Byte) (s : State),
    (year.toNat < 2000 ∨ 2100 < year.toNat →
      setDatetime year month day weekday hour minute second s = .next (s, .invalidInputData)) ∧
    (2000 ≤ year.toNat → year.toNat ≤ 2100 → 23 < hour.toNat → ∃ t,
      setDatetime year month day weekday hour minute second s = .next (t, .invalidInputData) ∧
      t.frames = s.frames ∧ t.reg = s.timePasses.reg ∧ t.buf = s.buf ∧ t.len = s.len ∧ t.ap = s.ap)

/-- SET_DATETIME whose frame n is the first to fail, the timekeeper not stepping: the first error ends it, the later
frames are not sent, nothing is undone, and the registers are as the spec's table by failing frame says
(spec/60_exceptions.md section 5; the spec's own derivation, which rests on decisions D11 to D13, D16 and D24,
log 13, log 15 and log 16). -/
def Obligations.SetDatetimePartialFailure : Prop :=
  ∀ (year : BitVec 16) (month day weekday hour minute second : Byte) (s : State) (n : Nat) (e : BusErr),
    2000 ≤ year.toNat → year.toNat ≤ 2100 → hour.toNat ≤ 23 → s.still 11 →
    n < 5 → s.okFor n → s.answers[n]? = some (some (.err e)) → ∃ t,
    setDatetime year month day weekday hour minute second s = .next (t, .busError e) ∧
    t.frames = s.frames ++ (setFrames (newClock year month day weekday hour minute second)).take (n + 1) ∧
    FailedSetRow n s.reg t.reg (newClock year month day weekday hour minute second)

/-- Setting a date and time in the accepted range and reading it back, every frame carried and the timekeeper not
stepping: the year and the hour are those that were set; the month, the day, the minute and the second are too, each
for an operand up to 159; the weekday is the BCD value of the operand plus 1, so one higher than an operand up to 9
(spec/95_test_vectors.md S7, spec/70_reset_and_hazards.md section 3, spec/90_conflicts.md C4, C5; the read-back rests
on the storage of all 8 bits, decision D11, on the encoding past 99, decision D6, log 15, and on the gate, decisions
D12 and D13, log 13). -/
def Obligations.SetThenGetDatetime : Prop :=
  ∀ (year : BitVec 16) (month day weekday hour minute second : Byte) (s : State),
    2000 ≤ year.toNat → year.toNat ≤ 2100 → hour.toNat ≤ 23 → s.okFor 6 → s.still 20 →
    ∃ t u y mo d w h mi sec, setDatetime year month day weekday hour minute second s = .next (t, .done) ∧
    getDatetime t = .next (u, .dateTime y mo d w h mi sec) ∧
    y.toNat = year.toNat ∧ h.toNat = hour.toNat ∧
    (month.toNat ≤ 159 → mo = month) ∧ (day.toNat ≤ 159 → d = day) ∧
    (minute.toNat ≤ 159 → mi = minute) ∧ (second.toNat ≤ 159 → sec = second) ∧
    w.toNat = bcdValue weekday + 1 ∧ (weekday.toNat ≤ 9 → w.toNat = weekday.toNat + 1)

/-- The write-sequence state: WriteEnabled after the enable part and after the payload, with the gate open; Idle
again after the disable part and at the end, with the gate closed; discarded when a part fails
(spec/43_driver_sequences.md Write sequencing; the open gate is the spec's own derivation). -/
def Obligations.WriteSequenceStates : Prop :=
  ∀ (c : ClockBlock) (s : State),
    (s.okFor 5 → ∃ t₁ t₂ t₃ t₄,
      runParts [.enable] .idle s = .next (t₁, .done, some .writeEnabled) ∧ t₁.reg.gateOpen = true ∧
      runParts [.enable, .payload (0x00 :: c.toList)] .idle s = .next (t₂, .done, some .writeEnabled) ∧
      t₂.reg.gateOpen = true ∧
      runParts [.enable, .payload (0x00 :: c.toList), .disable] .idle s = .next (t₃, .done, some .idle) ∧
      t₃.reg.gateOpen = false ∧
      runParts (setParts (0x00 :: c.toList)) .idle s = .next (t₄, .done, some .idle) ∧
      t₄.reg.gateOpen = false) ∧
    (∀ n e, n < 5 → s.okFor n → s.answers[n]? = some (some (.err e)) → ∃ t,
      runParts (setParts (0x00 :: c.toList)) .idle s = .next (t, .busError e, none))

/-- Each of the nine per-field setters returns Unsupported at once, sends no frame and changes no state
(spec/43_driver_sequences.md R145). -/
def Obligations.FieldSettersUnsupported : Prop :=
  ∀ (f : Field) (operand : List Byte) (s : State), setField f operand s = .next (s, .unsupported)
end

