-- ==== Sys2Proof/Laws/Decode.lean ====
section
/-! SUPPORT. The decoder's one loop: what taking bytes off the front gives. -/

namespace Sys2Proof

/-- Taking `n` bytes gives a front of `n` bytes and the rest. -/
theorem takeBytes_eq_some {n : Nat} {bytes front rest : List Byte} :
    takeBytes n bytes = some (front, rest) ↔ bytes = front ++ rest ∧ front.length = n := by
  induction n generalizing bytes front rest with
  | zero =>
    simp only [takeBytes, Option.some.injEq, Prod.mk.injEq, List.length_eq_zero_iff]
    constructor
    · rintro ⟨rfl, rfl⟩; exact ⟨rfl, rfl⟩
    · rintro ⟨h, rfl⟩; exact ⟨rfl, h⟩
  | succ n ih =>
    cases bytes with
    | nil =>
      simp only [takeBytes]
      constructor
      · intro h; cases h
      · rintro ⟨h, hl⟩
        cases front with
        | nil => cases hl
        | cons _ _ => cases h
    | cons b bytes =>
      simp only [takeBytes]
      constructor
      · intro h
        cases ht : takeBytes n bytes with
        | none => rw [ht] at h; cases h
        | some p =>
          rw [ht] at h
          cases h
          obtain ⟨rfl, hl⟩ := ih.1 ht
          exact ⟨rfl, by simp [hl]⟩
      · rintro ⟨h, hl⟩
        cases front with
        | nil => cases hl
        | cons c front =>
          cases h
          rw [show takeBytes n (front.append rest) = _ from ih.2 ⟨rfl, by simpa using hl⟩]

end Sys2Proof
end

