-- ==== Sys2Proof/Laws/Registers.lean ====
section
/-! SUPPORT. The register space: reading and writing one byte, and what the timekeeper leaves alone. -/

namespace Sys2Proof.Machine

@[simp] theorem get_set_same (r : Regs) (v : Byte) (x : Reg) : (r.set v x).get x = v := by cases x <;> rfl

theorem get_set_other (r : Regs) (v : Byte) {x y : Reg} (h : x ≠ y) : (r.set v x).get y = r.get y := by
  cases x <;> cases y <;> first | rfl | exact absurd rfl h

@[simp] theorem regAt_addr (x : Reg) : regAt x.addr = some x := by cases x <;> rfl

/-- An address names a register exactly when it is that register's address. -/
theorem regAt_eq_some {a : Byte} {x : Reg} : regAt a = some x ↔ a = x.addr := by
  constructor
  · intro h
    unfold regAt at h
    split at h <;> simp only [Option.some.injEq, reduceCtorEq] at h <;> subst h <;>
      exact BitVec.eq_of_toNat_eq (by simpa [Reg.addr] using ‹a.toNat = _›)
  · rintro rfl; exact regAt_addr x

@[simp] theorem read?_addr (r : Regs) (x : Reg) : r.read? x.addr = some (r.get x) := by
  simp [Regs.read?]

/-- Everything a write of one byte can do (spec/20_memory.md R41). -/
theorem write_cases (r : Regs) (a v : Byte) :
    (r.write a v = r ∧ ∀ x, regAt a = some x → x.gated = true ∧ r.gateOpen = false) ∨
    (∃ x, a = x.addr ∧ (x.gated = true → r.gateOpen = true) ∧ r.write a v = r.set v x) := by
  unfold Regs.write
  cases h : regAt a with
  | none => exact .inl ⟨rfl, by simp⟩
  | some x =>
    by_cases hg : x.gated && !r.gateOpen
    · refine .inl ⟨by simp [hg], ?_⟩
      intro y hy
      cases hy
      simpa using hg
    · refine .inr ⟨x, regAt_eq_some.1 h, ?_, by simp [hg]⟩
      intro hx
      simpa [hx] using hg

/-- A write leaves every other address alone. -/
theorem read?_write_other (r : Regs) {a b : Byte} (v : Byte) (h : b ≠ a) :
    (r.write a v).read? b = r.read? b := by
  rcases write_cases r a v with ⟨hw, -⟩ | ⟨x, rfl, -, hw⟩
  · rw [hw]
  · rw [hw]
    unfold Regs.read?
    cases hb : regAt b with
    | none => rfl
    | some y =>
      have hy : b = y.addr := regAt_eq_some.1 hb
      have hxy : x ≠ y := by rintro rfl; exact h hy
      simp [get_set_other _ _ hxy]

/-- A write that the gate lets through is read back. -/
theorem read?_write_same (r : Regs) (x : Reg) (v : Byte) (h : x.gated = true → r.gateOpen = true) :
    (r.write x.addr v).read? x.addr = some v := by
  rcases write_cases r x.addr v with ⟨-, hc⟩ | ⟨y, hy, -, hw⟩
  · have := hc x (regAt_addr x)
    simp [h this.1] at this
  · have : y = x := by simpa using (regAt_eq_some.2 hy).symm
    subst this
    simp [hw]

/-- A write to a clock-block address leaves the control registers and TRIM alone. -/
theorem write_gated_keeps_control (r : Regs) (x : Reg) (v : Byte) (h : x.gated = true) :
    (r.write x.addr v).ctr1 = r.ctr1 ∧ (r.write x.addr v).ctr2 = r.ctr2 ∧ (r.write x.addr v).trim = r.trim := by
  rcases write_cases r x.addr v with ⟨hw, -⟩ | ⟨y, hy, -, hw⟩
  · simp [hw]
  · have : y = x := by simpa using (regAt_eq_some.2 hy).symm
    subst this
    rw [hw]
    cases y <;> simp [Regs.set] <;> simp [Reg.gated] at h

-- the timekeeper
@[simp] theorem tick_ctr1 (r : Regs) : r.tick.ctr1 = r.ctr1 := rfl
@[simp] theorem tick_ctr2 (r : Regs) : r.tick.ctr2 = r.ctr2 := rfl
@[simp] theorem tick_trim (r : Regs) : r.tick.trim = r.trim := rfl
@[simp] theorem tickN_ctr1 (n : Nat) (r : Regs) : (r.tickN n).ctr1 = r.ctr1 := by
  induction n generalizing r with
  | zero => rfl
  | succ n ih => simp [Regs.tickN, ih]
@[simp] theorem tickN_ctr2 (n : Nat) (r : Regs) : (r.tickN n).ctr2 = r.ctr2 := by
  induction n generalizing r with
  | zero => rfl
  | succ n ih => simp [Regs.tickN, ih]
@[simp] theorem tickN_trim (n : Nat) (r : Regs) : (r.tickN n).trim = r.trim := by
  induction n generalizing r with
  | zero => rfl
  | succ n ih => simp [Regs.tickN, ih]

theorem timePasses_ctr1 (s : State) : s.timePasses.reg.ctr1 = s.reg.ctr1 := by
  unfold State.timePasses; split <;> simp
theorem timePasses_ctr2 (s : State) : s.timePasses.reg.ctr2 = s.reg.ctr2 := by
  unfold State.timePasses; split <;> simp
theorem timePasses_trim (s : State) : s.timePasses.reg.trim = s.reg.trim := by
  unfold State.timePasses; split <;> simp

/-- The gate is a function of the control registers (spec/10_state.md R24). -/
theorem gateOpen_congr {r q : Regs} (h1 : r.ctr1 = q.ctr1) (h2 : r.ctr2 = q.ctr2) : r.gateOpen = q.gateOpen := by
  simp [Regs.gateOpen, Regs.we1, Regs.we2, Regs.we3, h1, h2]

end Sys2Proof.Machine
end

