-- ==== Sys2Proof/Laws/State.lean ====
section
/-! SUPPORT. One lemma per field of the state for each shared update, so that no later proof unfolds one. -/

namespace Sys2Proof.Machine

variable (s : State) (r : Response) (a v : Byte) (bytes : List Byte) (f : Frame)

-- respond
@[simp] theorem respond_buf : (s.respond r).buf = s.buf := rfl
@[simp] theorem respond_len : (s.respond r).len = s.len := rfl
@[simp] theorem respond_ap : (s.respond r).ap = s.ap := rfl
@[simp] theorem respond_reg : (s.respond r).reg = s.reg := rfl
@[simp] theorem respond_host : (s.respond r).host = s.host := rfl
@[simp] theorem respond_resp : (s.respond r).resp = r := rfl
@[simp] theorem respond_frames : (s.respond r).frames = s.frames := rfl
@[simp] theorem respond_answers : (s.respond r).answers = s.answers := rfl
@[simp] theorem respond_ticks : (s.respond r).ticks = s.ticks := rfl
@[simp] theorem respond_draws : (s.respond r).draws = s.draws := rfl
@[simp] theorem raise_eq_respond : s.raise r = s.respond r := rfl

-- setAp
@[simp] theorem setAp_buf : (s.setAp a).buf = s.buf := rfl
@[simp] theorem setAp_len : (s.setAp a).len = s.len := rfl
@[simp] theorem setAp_ap : (s.setAp a).ap = a := rfl
@[simp] theorem setAp_reg : (s.setAp a).reg = s.reg := rfl
@[simp] theorem setAp_host : (s.setAp a).host = s.host := rfl
@[simp] theorem setAp_resp : (s.setAp a).resp = s.resp := rfl
@[simp] theorem setAp_frames : (s.setAp a).frames = s.frames := rfl
@[simp] theorem setAp_answers : (s.setAp a).answers = s.answers := rfl
@[simp] theorem setAp_ticks : (s.setAp a).ticks = s.ticks := rfl
@[simp] theorem setAp_draws : (s.setAp a).draws = s.draws := rfl

-- advance
@[simp] theorem advance_buf : s.advance.buf = s.buf := rfl
@[simp] theorem advance_len : s.advance.len = s.len := rfl
@[simp] theorem advance_ap : s.advance.ap = s.ap + 1 := rfl
@[simp] theorem advance_reg : s.advance.reg = s.reg := rfl
@[simp] theorem advance_host : s.advance.host = s.host := rfl
@[simp] theorem advance_resp : s.advance.resp = s.resp := rfl
@[simp] theorem advance_frames : s.advance.frames = s.frames := rfl
@[simp] theorem advance_answers : s.advance.answers = s.answers := rfl
@[simp] theorem advance_ticks : s.advance.ticks = s.ticks := rfl
@[simp] theorem advance_draws : s.advance.draws = s.draws := rfl

-- regWrite
@[simp] theorem regWrite_buf : (s.regWrite a v).buf = s.buf := rfl
@[simp] theorem regWrite_len : (s.regWrite a v).len = s.len := rfl
@[simp] theorem regWrite_ap : (s.regWrite a v).ap = s.ap := rfl
@[simp] theorem regWrite_reg : (s.regWrite a v).reg = s.reg.write a v := rfl
@[simp] theorem regWrite_host : (s.regWrite a v).host = s.host := rfl
@[simp] theorem regWrite_resp : (s.regWrite a v).resp = s.resp := rfl
@[simp] theorem regWrite_frames : (s.regWrite a v).frames = s.frames := rfl
@[simp] theorem regWrite_answers : (s.regWrite a v).answers = s.answers := rfl
@[simp] theorem regWrite_ticks : (s.regWrite a v).ticks = s.ticks := rfl
@[simp] theorem regWrite_draws : (s.regWrite a v).draws = s.draws := rfl

-- loadBuf
@[simp] theorem loadBuf_buf : (s.loadBuf bytes).buf = bytes ++ s.buf.drop bytes.length := rfl
@[simp] theorem loadBuf_len : (s.loadBuf bytes).len = bytes.length := rfl
@[simp] theorem loadBuf_ap : (s.loadBuf bytes).ap = s.ap := rfl
@[simp] theorem loadBuf_reg : (s.loadBuf bytes).reg = s.reg := rfl
@[simp] theorem loadBuf_host : (s.loadBuf bytes).host = s.host := rfl
@[simp] theorem loadBuf_resp : (s.loadBuf bytes).resp = s.resp := rfl
@[simp] theorem loadBuf_frames : (s.loadBuf bytes).frames = s.frames := rfl
@[simp] theorem loadBuf_answers : (s.loadBuf bytes).answers = s.answers := rfl
@[simp] theorem loadBuf_ticks : (s.loadBuf bytes).ticks = s.ticks := rfl
@[simp] theorem loadBuf_draws : (s.loadBuf bytes).draws = s.draws := rfl
@[simp] theorem loadBuf_verdict : (s.loadBuf bytes).verdict = s.verdict := rfl

-- setHost
@[simp] theorem setHost_buf : (s.setHost bytes).buf = s.buf := rfl
@[simp] theorem setHost_len : (s.setHost bytes).len = s.len := rfl
@[simp] theorem setHost_ap : (s.setHost bytes).ap = s.ap := rfl
@[simp] theorem setHost_reg : (s.setHost bytes).reg = s.reg := rfl
@[simp] theorem setHost_host : (s.setHost bytes).host = bytes := rfl
@[simp] theorem setHost_resp : (s.setHost bytes).resp = s.resp := rfl
@[simp] theorem setHost_frames : (s.setHost bytes).frames = s.frames := rfl
@[simp] theorem setHost_answers : (s.setHost bytes).answers = s.answers := rfl
@[simp] theorem setHost_ticks : (s.setHost bytes).ticks = s.ticks := rfl
@[simp] theorem setHost_draws : (s.setHost bytes).draws = s.draws := rfl
@[simp] theorem setHost_verdict : (s.setHost bytes).verdict = s.verdict := rfl

-- asked
@[simp] theorem asked_buf : (s.asked f).buf = s.buf := by unfold State.asked; split <;> rfl
@[simp] theorem asked_len : (s.asked f).len = s.len := by unfold State.asked; split <;> rfl
@[simp] theorem asked_ap : (s.asked f).ap = s.ap := by unfold State.asked; split <;> rfl
@[simp] theorem asked_reg : (s.asked f).reg = s.reg := by unfold State.asked; split <;> rfl
@[simp] theorem asked_host : (s.asked f).host = s.host := by unfold State.asked; split <;> rfl
@[simp] theorem asked_resp : (s.asked f).resp = s.resp := by unfold State.asked; split <;> rfl
@[simp] theorem asked_frames : (s.asked f).frames = s.frames ++ [f] := by unfold State.asked; split <;> rfl
@[simp] theorem asked_answers : (s.asked f).answers = s.answers.tail := by
  unfold State.asked; split <;> simp_all
@[simp] theorem asked_ticks : (s.asked f).ticks = s.ticks := by unfold State.asked; split <;> rfl

-- timePasses
@[simp] theorem timePasses_buf : s.timePasses.buf = s.buf := by unfold State.timePasses; split <;> rfl
@[simp] theorem timePasses_len : s.timePasses.len = s.len := by unfold State.timePasses; split <;> rfl
@[simp] theorem timePasses_ap : s.timePasses.ap = s.ap := by unfold State.timePasses; split <;> rfl
@[simp] theorem timePasses_host : s.timePasses.host = s.host := by unfold State.timePasses; split <;> rfl
@[simp] theorem timePasses_resp : s.timePasses.resp = s.resp := by unfold State.timePasses; split <;> rfl
@[simp] theorem timePasses_frames : s.timePasses.frames = s.frames := by unfold State.timePasses; split <;> rfl
@[simp] theorem timePasses_answers : s.timePasses.answers = s.answers := by
  unfold State.timePasses; split <;> rfl
@[simp] theorem timePasses_ticks : s.timePasses.ticks = s.ticks.tail := by
  unfold State.timePasses; split <;> simp_all

/-- A counted number of timekeeper steps. -/
theorem timePasses_reg : ∃ n, s.timePasses.reg = s.reg.tickN n := by
  unfold State.timePasses; split <;> exact ⟨_, rfl⟩

/-- A scheduled zero: nothing of the register space moves. -/
theorem timePasses_zero {rest : List Nat} (h : s.ticks = 0 :: rest) :
    s.timePasses = { s with ticks := rest } := by
  simp [State.timePasses, h, Regs.tickN]

end Sys2Proof.Machine
end

