-- ==== Sys2Proof/Laws/Ops.lean ====
section
/-! SUPPORT. One lemma per shared operation that says everything it can do; later proofs cite these and never
unfold the loops. -/

namespace Sys2Proof.Machine

/-- The write loop: the registers by `writeRun`, the pointer past the last byte, nothing else. -/
theorem writeBytes_eq (ds : List Byte) (s : State) :
    s.writeBytes ds = { s with reg := writeRun s.ap ds s.reg, ap := s.ap + BitVec.ofNat 8 ds.length } := by
  induction ds generalizing s with
  | nil => simp [State.writeBytes, writeRun]
  | cons d ds ih =>
    have h : s.ap + 1 + BitVec.ofNat 8 ds.length = s.ap + BitVec.ofNat 8 (ds.length + 1) := by
      apply BitVec.eq_of_toNat_eq
      simp [BitVec.toNat_add, BitVec.toNat_ofNat]
      omega
    rw [State.writeBytes, ih]
    simp only [advance_ap, regWrite_ap, advance_reg, regWrite_reg, List.length_cons, h, writeRun]
    rfl

/-- Drawing bytes: as many as asked for, and only the counter moves. -/
theorem drawBytes_eq (n : Nat) (s : State) :
    (s.drawBytes n).1.length = n ∧ (s.drawBytes n).2 = { s with draws := s.draws + n } := by
  induction n generalizing s with
  | zero => exact ⟨rfl, rfl⟩
  | succ n ih =>
    have := ih s.drawByte.2
    refine ⟨by simp [State.drawBytes, this.1], ?_⟩
    change (s.drawByte.2.drawBytes n).2 = _
    rw [this.2]
    simp [State.drawByte, Nat.add_assoc, Nat.add_comm 1 n]

/-- Reading one register: the stored byte, or a fresh draw; only the counter may move. -/
theorem regRead_cases (a : Byte) (s : State) :
    (∃ v, s.reg.read? a = some v ∧ s.regRead a = (v, s)) ∨
    (s.reg.read? a = none ∧ s.regRead a = (Config.freeByte s.draws, { s with draws := s.draws + 1 })) := by
  unfold State.regRead
  cases h : s.reg.read? a with
  | none => exact .inr ⟨rfl, rfl⟩
  | some v => exact .inl ⟨v, rfl, rfl⟩

theorem effectiveAddress_succ (a : Byte) (j : Nat) :
    effectiveAddress (a + 1) (j + 1) = effectiveAddress a (j + 2) := by
  apply BitVec.eq_of_toNat_eq
  simp [effectiveAddress, BitVec.toNat_add, BitVec.toNat_ofNat]
  omega

theorem effectiveAddress_one (a : Byte) : effectiveAddress a 1 = a := by simp [effectiveAddress]

/-- The read loop: the bytes, each exact at a mapped address, the pointer past the last one; only the pointer
and the counter move. -/
theorem readBytes_spec (n : Nat) (s : State) :
    (s.readBytes n).1.length = n ∧
    (∃ m, (s.readBytes n).2 = { s with ap := s.ap + BitVec.ofNat 8 n, draws := m }) ∧
    ∀ j < n, ∀ x, s.reg.read? (effectiveAddress s.ap (j + 1)) = some x → (s.readBytes n).1[j]? = some x := by
  induction n generalizing s with
  | zero => exact ⟨rfl, ⟨s.draws, by simp [State.readBytes]⟩, by simp⟩
  | succ n ih =>
    have hap : s.ap + 1 + BitVec.ofNat 8 n = s.ap + BitVec.ofNat 8 (n + 1) := by
      apply BitVec.eq_of_toNat_eq
      simp [BitVec.toNat_add, BitVec.toNat_ofNat]
      omega
    obtain ⟨hd, hst⟩ : (∀ x, s.reg.read? s.ap = some x → (s.regRead s.ap).1 = x) ∧
        ∃ m, (s.regRead s.ap).2 = { s with draws := m } := by
      rcases regRead_cases s.ap s with ⟨v, hv, he⟩ | ⟨hv, he⟩
      · refine ⟨fun x hx => ?_, s.draws, by rw [he]⟩
        rw [he]; rw [hv] at hx; exact Option.some.inj hx
      · exact ⟨fun x hx => (by rw [hv] at hx; cases hx), s.draws + 1, by rw [he]⟩
    obtain ⟨m, hm⟩ := hst
    obtain ⟨hl, ⟨m', hm'⟩, hv⟩ := ih (s.regRead s.ap).2.advance
    refine ⟨by simp [State.readBytes, hl], ⟨m', ?_⟩, ?_⟩
    · simp only [State.readBytes, hm']
      rw [hm]
      simp only [advance_ap, hap]
      rfl
    · intro j hj x hx
      cases j with
      | zero =>
        rw [effectiveAddress_one] at hx
        simp [State.readBytes, hd x hx]
      | succ j =>
        simp only [State.readBytes, List.getElem?_cons_succ]
        apply hv j (by omega)
        rw [hm]
        simp only [advance_ap, advance_reg, effectiveAddress_succ]
        exact hx

/-- The bytes the read loop gives depend on the registers, the pointer and the counter alone. -/
theorem readBytes_congr (n : Nat) {s t : State} (h1 : s.reg = t.reg) (h2 : s.ap = t.ap) (h3 : s.draws = t.draws) :
    (s.readBytes n).1 = (t.readBytes n).1 ∧ (s.readBytes n).2.draws = (t.readBytes n).2.draws := by
  induction n generalizing s t with
  | zero => exact ⟨rfl, h3⟩
  | succ n ih =>
    have hr : (s.regRead s.ap).1 = (t.regRead t.ap).1 ∧
        (s.regRead s.ap).2.advance.reg = (t.regRead t.ap).2.advance.reg ∧
        (s.regRead s.ap).2.advance.ap = (t.regRead t.ap).2.advance.ap ∧
        (s.regRead s.ap).2.advance.draws = (t.regRead t.ap).2.advance.draws := by
      unfold State.regRead
      rw [← h1, ← h2]
      cases s.reg.read? s.ap <;> simp [State.drawByte, h1, h2, h3]
    obtain ⟨e1, e2, e3, e4⟩ := hr
    obtain ⟨i1, i2⟩ := ih e2 e3 e4
    exact ⟨by simp [State.readBytes, e1, i1], by simp [State.readBytes, i2]⟩

/-- A failed write with its draws made: a prefix of the data through the gate, an arbitrary pointer. -/
theorem partialWrite_eq (k : Nat) (x a : Byte) (data : List Byte) (s : State) :
    s.partialWrite k x a data = { s with reg := writeRun a (data.take k) s.reg, ap := x } := by
  simp only [State.partialWrite, writeBytes_eq, setAp_ap, setAp_reg]
  rfl

/-- The write run leaves every address it does not write alone. -/
theorem writeRun_read?_other (a : Byte) (ds : List Byte) (r : Regs) {x : Byte}
    (h : ∀ j < ds.length, x ≠ effectiveAddress a (j + 1)) : (writeRun a ds r).read? x = r.read? x := by
  induction ds generalizing a r with
  | nil => rfl
  | cons d ds ih =>
    have h0 : x ≠ a := by simpa [effectiveAddress_one] using h 0 (by simp)
    rw [writeRun, ih, read?_write_other _ _ h0]
    intro j hj
    rw [effectiveAddress_succ]
    exact h (j + 1) (by simpa using hj)

/-- Everything a transfer can do: stop for want of an answer, or end on the transport's verdict. -/
theorem transfer_cases (f : Frame) (ending : Verdict → State → State) (s : State) :
    (s.verdict = none ∧ s.transfer f ending = .fault .transportSilent) ∨
    (∃ v, s.verdict = some v ∧ s.transfer f ending = .next (ending v (s.asked f))) := by
  unfold State.transfer
  cases h : s.verdict with
  | none => exact .inl ⟨rfl, rfl⟩
  | some v => exact .inr ⟨v, rfl, rfl⟩

end Sys2Proof.Machine
end

