-- ==== Sys2Proof/Laws/PerInstr.lean ====
section
/-! SUPPORT. Statements about every instruction as syntax, one lemma per constructor. -/

namespace Sys2Proof.Laws

/-- The command of an instruction is as long as its format says (spec/30_encoding.md R75). -/
def EncodedLength.Statement (i : Instr) : Prop := (encode i).length = commandLength i

theorem EncodedLength.bcdDec (b : Byte) : EncodedLength.Statement (.bcdDec b) := rfl
theorem EncodedLength.bcdEnc (v : Byte) : EncodedLength.Statement (.bcdEnc v) := rfl
theorem EncodedLength.hourDec (b : Byte) : EncodedLength.Statement (.hourDec b) := rfl
theorem EncodedLength.hourEnc (tag : HourTag) (v : Byte) : EncodedLength.Statement (.hourEnc tag v) := rfl
theorem EncodedLength.hourTo24 (tag : HourTag) (v : Byte) : EncodedLength.Statement (.hourTo24 tag v) := rfl
theorem EncodedLength.wrReg (a d : Byte) : EncodedLength.Statement (.wrReg a d) := rfl
theorem EncodedLength.wrBurst (bytes : List Byte) : EncodedLength.Statement (.wrBurst bytes) := by
  simp [EncodedLength.Statement, encode, operandBytes, commandLength]; omega
theorem EncodedLength.rdReg (a : Byte) : EncodedLength.Statement (.rdReg a) := rfl
theorem EncodedLength.rdBurst (a : Byte) (len : Nat) : EncodedLength.Statement (.rdBurst a len) := rfl

/-- The opcode byte is `0000 oooo`, and its bits 3, 1 and 0 tell the operations apart: bit 3 a transfer, then
bit 1 a read and bit 0 a burst (spec/30_encoding.md R69, R70). -/
def OpcodeMap.Statement (i : Instr) : Prop :=
  (opcodeByte i).toNat < 16 ∧
  match i with
  | .bcdDec _ | .bcdEnc _ | .hourDec _ | .hourEnc _ _ | .hourTo24 _ _ => (opcodeByte i).getLsbD 3 = false
  | .wrReg _ _ =>
    (opcodeByte i).getLsbD 3 = true ∧ (opcodeByte i).getLsbD 1 = false ∧ (opcodeByte i).getLsbD 0 = false
  | .wrBurst _ =>
    (opcodeByte i).getLsbD 3 = true ∧ (opcodeByte i).getLsbD 1 = false ∧ (opcodeByte i).getLsbD 0 = true
  | .rdReg _ =>
    (opcodeByte i).getLsbD 3 = true ∧ (opcodeByte i).getLsbD 1 = true ∧ (opcodeByte i).getLsbD 0 = false
  | .rdBurst _ _ =>
    (opcodeByte i).getLsbD 3 = true ∧ (opcodeByte i).getLsbD 1 = true ∧ (opcodeByte i).getLsbD 0 = true

theorem OpcodeMap.bcdDec (b : Byte) : OpcodeMap.Statement (.bcdDec b) := by simp [OpcodeMap.Statement, opcodeByte]
theorem OpcodeMap.bcdEnc (v : Byte) : OpcodeMap.Statement (.bcdEnc v) := by simp [OpcodeMap.Statement, opcodeByte]
theorem OpcodeMap.hourDec (b : Byte) : OpcodeMap.Statement (.hourDec b) := by simp [OpcodeMap.Statement, opcodeByte]
theorem OpcodeMap.hourEnc (tag : HourTag) (v : Byte) : OpcodeMap.Statement (.hourEnc tag v) := by simp [OpcodeMap.Statement, opcodeByte]
theorem OpcodeMap.hourTo24 (tag : HourTag) (v : Byte) : OpcodeMap.Statement (.hourTo24 tag v) := by simp [OpcodeMap.Statement, opcodeByte]
theorem OpcodeMap.wrReg (a d : Byte) : OpcodeMap.Statement (.wrReg a d) := by simp [OpcodeMap.Statement, opcodeByte]
theorem OpcodeMap.wrBurst (bytes : List Byte) : OpcodeMap.Statement (.wrBurst bytes) := by simp [OpcodeMap.Statement, opcodeByte]
theorem OpcodeMap.rdReg (a : Byte) : OpcodeMap.Statement (.rdReg a) := by simp [OpcodeMap.Statement, opcodeByte]
theorem OpcodeMap.rdBurst (a : Byte) (len : Nat) : OpcodeMap.Statement (.rdBurst a len) := by simp [OpcodeMap.Statement, opcodeByte]

end Sys2Proof.Laws
end

