-- ==== Sys2Proof/Laws/Transfers.lean ====
section
/-! SUPPORT. What a transfer and an operation can do: one inversion lemma for `exec`, one lemma for each way a
frame ends. -/

namespace Sys2Proof.Machine

theorem lenOk_two : lenOk 2 = true := by
  simp [lenOk, Config.bufMax]

theorem lenOk_iff (n : Nat) : lenOk n = true ↔ 1 ≤ n ∧ n ≤ Config.bufMax ∧ n < 256 := by
  simp [lenOk, and_assoc]

/-- A write frame that the transport carried. -/
theorem endWrite_ok (a : Byte) (data : List Byte) (s : State) :
    endWrite a data .ok s =
      { s with reg := writeRun a data s.reg, ap := a + BitVec.ofNat 8 data.length, resp := .done } := by
  simp only [endWrite, writeBytes_eq, setAp_ap, setAp_reg]
  rfl

/-- A write frame that failed: a prefix of the data is stored, the pointer is arbitrary. -/
theorem endWrite_err (a : Byte) (data : List Byte) (e : BusErr) (s : State) :
    ∃ k x n, k ≤ data.length ∧ endWrite a data (.err e) s =
      { s with reg := writeRun a (data.take k) s.reg, ap := x, draws := n, resp := .busError e } := by
  refine ⟨(s.drawUpTo data.length).1, (s.drawUpTo data.length).2.drawByte.1, s.draws + 1 + 1, ?_, ?_⟩
  · exact Nat.le_of_lt_succ (Nat.mod_lt _ (Nat.succ_pos _))
  · simp only [endWrite, partialWrite_eq]
    rfl

/-- A read frame that the transport carried: the data bytes, exact at the mapped addresses. -/
theorem endRead_ok (a : Byte) (n : Nat) (answer : State → Response) (s : State) :
    ∃ vs m, vs.length = n ∧
      (∀ j < n, ∀ x, s.reg.read? (effectiveAddress a (j + 1)) = some x → vs[j]? = some x) ∧
      endRead a n answer .ok s =
        State.respond (answer { s with buf := (a :: vs) ++ s.buf.drop (n + 1), len := n + 1,
                                       ap := a + BitVec.ofNat 8 n, draws := m })
          { s with buf := (a :: vs) ++ s.buf.drop (n + 1), len := n + 1,
                   ap := a + BitVec.ofNat 8 n, draws := m } := by
  obtain ⟨hl, ⟨m, hm⟩, hv⟩ := readBytes_spec n (s.setAp a)
  refine ⟨((s.setAp a).readBytes n).1, m, hl, hv, ?_⟩
  have : ((s.setAp a).readBytes n).2.loadBuf (a :: ((s.setAp a).readBytes n).1) =
      { s with buf := (a :: ((s.setAp a).readBytes n).1) ++ s.buf.drop (n + 1), len := n + 1,
               ap := a + BitVec.ofNat 8 n, draws := m } := by
    rw [hm]
    simp only [State.loadBuf, List.length_cons, hl]
    rfl
  simp only [endRead, this]

/-- A read frame that failed: the data elements and the pointer are arbitrary, no register changes. -/
theorem endRead_err (a : Byte) (n : Nat) (answer : State → Response) (e : BusErr) (s : State) :
    ∃ vs x m, vs.length = n ∧ endRead a n answer (.err e) s =
      { s with buf := (a :: vs) ++ s.buf.drop (n + 1), len := n + 1, ap := x, draws := m,
               resp := .busError e } := by
  obtain ⟨hl, hst⟩ := drawBytes_eq n s
  refine ⟨(s.drawBytes n).1, (s.drawBytes n).2.drawByte.1, s.draws + n + 1, hl, ?_⟩
  simp [endRead, hst, State.drawByte, State.loadBuf, State.setAp, State.respond, State.raise, hl]

/-- What an operation can do when it answers a next state: a codec operation responds; a write transfer and a
read transfer end on the transport's verdict. -/
theorem exec_next_cases {i : Instr} {s t : State} (h : exec i s = .next t) :
    (isCodec i = true ∧ ∃ r, t = s.respond r) ∨
    (∃ a data v, s.verdict = some v ∧ lenOk (data.length + 1) = true ∧
      ((∃ d, data = [d] ∧ i = .wrReg a d) ∨ i = .wrBurst (a :: data)) ∧
      t = endWrite a data v ((s.loadBuf (a :: data)).asked (.w Config.devAddr (a :: data)))) ∨
    (∃ a n answer v, s.verdict = some v ∧ lenOk (n + 1) = true ∧
      ((i = .rdReg a ∧ n = 1) ∨ i = .rdBurst a (n + 1)) ∧
      t = endRead a n answer v (s.asked (.wr Config.devAddr a n))) := by
  have write : ∀ a data, writeTransfer a data s = .next t → ∃ v, s.verdict = some v ∧
      t = endWrite a data v ((s.loadBuf (a :: data)).asked (.w Config.devAddr (a :: data))) := by
    intro a data hw
    unfold writeTransfer at hw
    rcases transfer_cases (.w Config.devAddr (a :: data)) (endWrite a data) (s.loadBuf (a :: data))
      with ⟨-, he⟩ | ⟨v, hv, he⟩
    · rw [he] at hw; cases hw
    · rw [he] at hw; cases hw; exact ⟨v, hv, rfl⟩
  have read : ∀ a n answer, readTransfer a n answer s = .next t → ∃ v, s.verdict = some v ∧
      t = endRead a n answer v (s.asked (.wr Config.devAddr a n)) := by
    intro a n answer hr
    unfold readTransfer at hr
    rcases transfer_cases (.wr Config.devAddr a n) (endRead a n answer) s with ⟨-, he⟩ | ⟨v, hv, he⟩
    · rw [he] at hr; cases hr
    · rw [he] at hr; cases hr; exact ⟨v, hv, rfl⟩
  cases i with
  | bcdDec b => cases h; exact .inl ⟨rfl, _, rfl⟩
  | bcdEnc v => cases h; exact .inl ⟨rfl, _, rfl⟩
  | hourDec b => cases h; exact .inl ⟨rfl, _, rfl⟩
  | hourEnc tag v =>
    refine .inl ⟨rfl, ?_⟩
    simp only [exec, execHourEnc] at h
    split at h <;> cases h <;> exact ⟨_, rfl⟩
  | hourTo24 tag v => cases h; exact .inl ⟨rfl, _, rfl⟩
  | wrReg a d =>
    obtain ⟨v, hv, ht⟩ := write a [d] h
    exact .inr (.inl ⟨a, [d], v, hv, lenOk_two, .inl ⟨d, rfl, rfl⟩, ht⟩)
  | wrBurst bytes =>
    cases bytes with
    | nil => cases h
    | cons a data =>
      simp only [exec, execWrBurst] at h
      split at h
      · obtain ⟨v, hv, ht⟩ := write a data h
        exact .inr (.inl ⟨a, data, v, hv, ‹_›, .inr rfl, ht⟩)
      · cases h
  | rdReg a =>
    obtain ⟨v, hv, ht⟩ := read a 1 _ h
    exact .inr (.inr ⟨a, 1, _, v, hv, lenOk_two, .inl ⟨rfl, rfl⟩, ht⟩)
  | rdBurst a len =>
    simp only [exec, execRdBurst] at h
    split at h
    · obtain ⟨v, hv, ht⟩ := read a (len - 1) _ h
      have hl := (lenOk_iff len).1 ‹_›
      have : len - 1 + 1 = len := by omega
      exact .inr (.inr ⟨a, len - 1, _, v, hv, by rwa [this], .inr (by rw [this]), ht⟩)
    · cases h

/-- What a step can do when it answers a next state: wait, or run the next command. -/
theorem step_next_cases {s t : State} (h : step s = .next t) :
    (s.host = [] ∧ t = s.timePasses) ∨
    ∃ i rest, decode s.host = .command i rest ∧ exec i (s.timePasses.setHost rest) = .next t := by
  unfold step State.fetch at h
  rw [timePasses_host] at h
  cases hh : s.host with
  | nil => rw [hh] at h; cases h; exact .inl ⟨rfl, rfl⟩
  | cons op bytes =>
    rw [hh] at h
    cases hd : decode (op :: bytes) with
    | command i rest => simp only [hd] at h; exact .inr ⟨i, rest, rfl, h⟩
    | rejected why => simp only [hd] at h; cases h

end Sys2Proof.Machine
end

