-- ==== Sys2Proof/Tests/Slice0.lean ====
section
/-! SUPPORT. Tests: each expected value is the spec's own (spec/95_test_vectors.md, ids S<n> and V<n>) or worked
by hand from the rule named. The witnesses at the end show, for every statement with hypotheses, values that meet
them. -/

namespace Sys2Proof.Tests

open Sys2Proof Sys2Proof.Machine

/-! ## Helpers -/

/-- What `f` reads in the next state. -/
def got {α : Type} (f : State → α) : Host.Outcome State Fault Refusal → Option α
  | .next t => some (f t)
  | .fault _ | .refused _ => none

/-- The result of a pseudo-operation. -/
def result : Ended → Option Result
  | .next (_, r) => some r
  | .fault _ | .refused _ => none

/-- What `f` reads in the state a pseudo-operation leaves. -/
def left {α : Type} (f : State → α) : Ended → Option α
  | .next (t, _) => some (f t)
  | .fault _ | .refused _ => none

/-- The refusal an outcome is. -/
def refusal : Host.Outcome State Fault Refusal → Option Refusal
  | .refused r => some r
  | .next _ | .fault _ => none

/-- A frame without its device address. -/
def shape : Frame → List Byte × Option Nat
  | .w _ bytes => (bytes, none)
  | .wr _ a m => ([a], some m)

/-- The clock block of the sequencer vectors (spec/95_test_vectors.md 2.6). -/
def clock0 : ClockBlock := { sec := 0x11, min := 0x22, hour := 0x13, dow := 0x05, dom := 0x07, mon := 0x08, year := 0x21 }

/-- The clock block program P1 ends with (spec/95_test_vectors.md). -/
def clockP1 : ClockBlock := { sec := 0x59, min := 0x59, hour := 0xA3, dow := 0x03, dom := 0x31, mon := 0x12, year := 0x19 }

/-- The one transport error that every machine has (log 5). -/
def err : BusErr := { code := 0, isError := .inl rfl }

/-- A state with these registers, whose transport gives these answers and whose timekeeper does not step. -/
def at' (clock : ClockBlock) (ctr1 ctr2 : Byte) (answers : List (Option Verdict)) : State where
  buf := [0, 0, 0, 0, 0, 0, 0, 0] ++ List.replicate Config.bufMaxOver 0
  len := 0
  ap := 0
  reg := { clock := clock, ctr1 := ctr1, ctr2 := ctr2, trim := 0x5A }
  host := []
  resp := .unanswered
  frames := []
  answers := answers
  ticks := List.replicate 20 0
  draws := 0

/-- Six carried frames. -/
def oks : List (Option Verdict) := List.replicate 6 (some .ok)

/-- The start state of the sequencer vectors: gate closed. -/
def closed : State := at' clock0 0x00 0x00 oks

/-- The same with the gate open. -/
def opened : State := at' clock0 0x84 0x80 oks

/-- The same with the gate open and a transport that fails the first frame. -/
def failing : State := at' clock0 0x84 0x80 [some (.err err)]

/-- The same with a transport that never answers. -/
def silent : State := at' clock0 0x84 0x80 [none]

/-! ## Well-formedness: each check refuses an ill-formed term -/

theorem test_wf_write_length_zero : (Instr.wrBurst []).wf = false := by decide
theorem test_wf_read_length_zero : (Instr.rdBurst 0x00 0).wf = false := by decide
theorem test_wf_read_above_buf_max : (Instr.rdBurst 0x00 (Config.bufMax + 1)).wf = false := by
  simp [Instr.wf, lenOk]
theorem test_wf_write_above_buf_max : (Instr.wrBurst (List.replicate (Config.bufMax + 1) 0)).wf = false := by
  simp [Instr.wf, lenOk]
theorem test_wf_read_above_a_byte : (Instr.rdBurst 0x00 256).wf = false := by simp [Instr.wf, lenOk]
theorem test_wf_accepts_eight : (Instr.rdBurst 0x00 8).wf = true := by simp [Instr.wf, lenOk, Config.bufMax]

/-! ## Decoding: words written out from the opcode map and the formats (spec/30_encoding.md R69, R70) -/

theorem test_decode_bcdDec : decode [0b00000001, 0b01011001] = .command (.bcdDec 0x59) [] := by decide
theorem test_decode_bcdEnc : decode [0b00000010, 0b00111011] = .command (.bcdEnc 59) [] := by decide
theorem test_decode_hourDec : decode [0b00000011, 0b10100011] = .command (.hourDec 0xA3) [] := by decide
theorem test_decode_hourEnc : decode [0b00000100, 0b00000010, 0b00001011] = .command (.hourEnc .pm 11) [] := by decide
theorem test_decode_hourTo24 : decode [0b00000101, 0b00000001, 0b00001100] = .command (.hourTo24 .am 12) [] := by decide
theorem test_decode_wrReg : decode [0b00001000, 0b00010000, 0b10000000] = .command (.wrReg 0x10 0x80) [] := by decide
/-- The byte after the buffer belongs to the next command. -/
theorem test_decode_wrBurst : decode [0b00001001, 0b00000011, 0b00001111, 0b00000000, 0b00000001, 0b00001010] =
    .command (.wrBurst [0x0F, 0x00, 0x01]) [0x0A] := by decide
theorem test_decode_rdReg : decode [0b00001010, 0b00000110] = .command (.rdReg 0x06) [] := by decide
/-- In format CR the length comes before the address. -/
theorem test_decode_rdBurst : decode [0b00001011, 0b00000100, 0b00000111] = .command (.rdBurst 0x07 4) [] := by decide

/-- V109. -/
theorem test_decode_reserved : decode [0x00, 0] = .rejected (.reservedOpcode 0x00) ∧
    decode [0x06, 0] = .rejected (.reservedOpcode 0x06) ∧ decode [0x07, 0] = .rejected (.reservedOpcode 0x07) ∧
    decode [0x0C, 0] = .rejected (.reservedOpcode 0x0C) := by decide
/-- V76, and a tag byte with bit 2 set (R73). -/
theorem test_decode_reserved_tag : decode [0x04, 0x03, 0x05] = .rejected (.reservedTag 0x03) ∧
    decode [0x05, 0x04, 0x05] = .rejected (.reservedTag 0x04) := by decide
theorem test_decode_incomplete : decode [0x08, 0x10] = .rejected .incomplete ∧
    decode [0x09, 0x02, 0x00] = .rejected .incomplete := by decide
theorem test_encode_wrBurst : encode (.wrBurst [0x0F, 0x00, 0x00]) = [0x09, 0x03, 0x0F, 0x00, 0x00] := by decide

/-- The table's numbering: the opcode is the low byte of the word. -/
theorem test_decodeTableWord : decodeTableWord 24 0x801008 = some (.wrReg 0x10 0x80) := by decide
/-- A step runs the command that stands where it takes its next one. -/
theorem test_step_runs_word : got (·.resp) (step (closed.withFetchWord 24 0x170005)) = some (.val9 23) := by decide
/-- It takes the command's bytes and no more. -/
theorem test_step_takes_command : got (·.host) (step ({ closed with host := [0x0A, 0x06] }.withFetchWord 16 0x5901)) =
    some [0x0A, 0x06] := by decide
/-- From reset the first command runs, whatever the open parameters are. -/
theorem test_step_from_reset : got (·.resp) (step (State.reset.withFetchWord 16 0x5901)) = some (.val 59) := by decide
theorem test_step_waits : got (·.host) (step closed) = some [] := by decide

/-! ## The codecs -/

/-- V12 and V6: the largest result, a malformed units digit. -/
theorem test_bcdDec : got (·.resp) (exec (.bcdDec 0xFF) closed) = some (.val 165) ∧
    got (·.resp) (exec (.bcdDec 0x0A) closed) = some (.val 10) := by decide
/-- V25 and V32: out of contract, and past the wrap of the tens digit. -/
theorem test_bcdEnc : got (·.resp) (exec (.bcdEnc 100) closed) = some (.byte 0xA0) ∧
    got (·.resp) (exec (.bcdEnc 255) closed) = some (.byte 0x95) := by decide
/-- V54, V51 and V57: bit 7 goes before bit 5; bit 6 is never masked. -/
theorem test_hourDec : got (·.resp) (exec (.hourDec 0xA3) closed) = some (.hour .h24 23) ∧
    got (·.resp) (exec (.hourDec 0x7F) closed) = some (.hour .pm 65) ∧
    got (·.resp) (exec (.hourDec 0xFF) closed) = some (.hour .h24 85) := by decide
/-- V62, V74 and V68. -/
theorem test_hourEnc : got (·.resp) (exec (.hourEnc .h24 23) closed) = some (.byte 0xA3) ∧
    got (·.resp) (exec (.hourEnc .pm 12) closed) = some (.byte 0x32) ∧
    got (·.resp) (exec (.hourEnc .am 12) closed) = some (.byte 0x12) := by decide
/-- V63, V65, V69, V70, V75 (S2). -/
theorem test_hourEnc_out_of_range :
    ([(.h24, 24), (.am, 0), (.am, 13), (.pm, 0), (.pm, 13)] : List (HourTag × Byte)).map
      (fun x => got (·.resp.st) (exec (.hourEnc x.1 x.2) closed)) = List.replicate 5 (some .invalidInputData) := by
  decide
/-- S3: AM(12) stays 12, PM(0) is 12. -/
theorem test_hourTo24 : got (·.resp) (exec (.hourTo24 .am 12) closed) = some (.val9 12) ∧
    got (·.resp) (exec (.hourTo24 .pm 0) closed) = some (.val9 12) := by decide
/-- V82: the ninth bit. -/
theorem test_hourTo24_ninth_bit : got (·.resp) (exec (.hourTo24 .pm 255) closed) = some (.val9 267) := by decide

/-! ## The sequencer -/

/-- V92 and V100: the gate drops the byte and the status is OK; open, it is stored. -/
theorem test_wrReg_gate : got (fun t => (t.reg.clock.sec, t.resp, t.ap)) (exec (.wrReg 0x00 0x30) closed) =
      some (0x11, .done, 0x01) ∧
    got (fun t => (t.reg.clock.sec, t.frames.map shape)) (exec (.wrReg 0x00 0x30) opened) =
      some (0x30, [([0x00, 0x30], none)]) := by decide
/-- V102, V103 and V104: each flag closes the gate; the other bits do not matter. -/
theorem test_wrReg_flags : got (·.reg.clock.sec) (exec (.wrReg 0x00 0x30) (at' clock0 0x84 0x00 oks)) = some 0x11 ∧
    got (·.reg.clock.sec) (exec (.wrReg 0x00 0x30) (at' clock0 0x80 0x80 oks)) = some 0x11 ∧
    got (·.reg.clock.sec) (exec (.wrReg 0x00 0x30) (at' clock0 0xFF 0xFF oks)) = some 0x30 := by decide
/-- V101: the third byte goes to an unmapped address. -/
theorem test_wrBurst : got (fun t => (t.reg.clock.mon, t.reg.clock.year, t.reg.clock.dom, t.ap, t.len))
    (exec (.wrBurst [0x05, 0x09, 0x25, 0x77]) opened) = some (0x09, 0x25, 0x07, 0x08, 4) := by decide
/-- S8: no data byte. -/
theorem test_wrBurst_length_one : got (fun t => (t.reg, t.ap, t.len, t.resp)) (exec (.wrBurst [0x05]) closed) =
    some (closed.reg, 0x05, 1, .done) := by decide
/-- V90. -/
theorem test_rdReg : got (fun t => (t.resp, t.ap, t.len)) (exec (.rdReg 0x06) closed) = some (.byte 0x21, 0x07, 2) ∧
    got (fun t => (t.buf.take 2, t.frames.map shape)) (exec (.rdReg 0x06) closed) =
      some ([0x06, 0x21], [([0x06], some 1)]) := by decide
/-- V105: the registers are unchanged and the error is handed on. -/
theorem test_rdReg_err : got (fun t => (t.resp, t.reg)) (exec (.rdReg 0x06) failing) =
    some (.busError err, failing.reg) := by decide
/-- V91. -/
theorem test_rdBurst : got (fun t => (t.resp, t.ap)) (exec (.rdBurst 0x04 4) closed) =
    some (.buf [0x04, 0x07, 0x08, 0x21], 0x07) := by decide
/-- V98: the pointer wraps from 0xFF to 0x00. -/
theorem test_rdBurst_wraps : got (fun t => (t.bufAt 0, t.bufAt 2, t.ap)) (exec (.rdBurst 0xFF 3) closed) =
    some (0xFF, 0x11, 0x01) := by decide
/-- V107: the four prefixes. -/
theorem test_partialWrite :
    (List.range 4).map (fun k => (opened.partialWrite k 0 0x00 [0x01, 0x02, 0x03]).reg.clock.toList.take 3) =
      [[0x11, 0x22, 0x13], [0x01, 0x22, 0x13], [0x01, 0x02, 0x13], [0x01, 0x02, 0x03]] := by decide
/-- V108. -/
theorem test_wrBurst_length_zero : refusal (step { closed with host := [0x09, 0x00] }) = some (.bufferLength 0) := by
  decide

/-! ## The clock-driver sequences -/

/-- S4, V124: the weekday, and its ninth bit. -/
theorem test_getWeekday : result (getWeekday (at' { clock0 with dow := 0x06 } 0 0 oks)) = some (.weekday 7) ∧
    result (getWeekday (at' { clock0 with dow := 0xFF } 0 0 oks)) = some (.weekday 166) := by decide
/-- S5, V126. -/
theorem test_getYear : result (getYear (at' { clock0 with year := 0x24 } 0 0 oks)) = some (.year 2024) ∧
    result (getYear (at' { clock0 with year := 0xFF } 0 0 oks)) = some (.year 2165) := by decide
/-- V122: not converted. -/
theorem test_getHours : result (getHours (at' { clock0 with hour := 0x31 } 0 0 oks)) = some (.hour .pm 11) := by decide
/-- V127: twelve noon reads 24. -/
theorem test_getTime : result (getTime (at' { clock0 with sec := 0x30, min := 0x15, hour := 0x32 } 0 0 oks)) =
    some (.time 24 15 30) := by decide
/-- V129. -/
theorem test_getDate : result (getDate (at' { clock0 with dom := 0x29, mon := 0x02, year := 0x24 } 0 0 oks)) =
    some (.date 2024 2 29) := by decide
/-- Program P1, steps 1 to 12: the registers at the end, and the five frames. -/
theorem test_setDatetime : left (fun t => (t.reg, t.frames.length, t.ap)) (setDatetime 2019 12 31 3 23 59 59 closed) =
    some ({ clock := clockP1, ctr1 := 0x00, ctr2 := 0x00, trim := 0x00 }, 5, 0x13) := by decide
/-- Program P1, steps 13 to 21. -/
theorem test_getDatetime : result (getDatetime (at' clockP1 0 0 oks)) = some (.dateTime 2019 12 31 4 23 59 59) := by decide
/-- S6 and V135: the window, and a bad hour sends no frame. -/
theorem test_setDatetime_invalid : result (setDatetime 1999 1 1 1 24 0 0 closed) = some .invalidInputData ∧
    result (setDatetime 2101 1 1 7 0 0 0 closed) = some .invalidInputData ∧
    left (·.frames) (setDatetime 2024 1 1 2 24 0 0 closed) = some [] := by decide
/-- V136: the first frame fails. -/
theorem test_setDatetime_first_frame_fails :
    result (setDatetime 2024 1 1 2 0 0 0 (at' clock0 0 0 [some (.err err)])) = some (.busError err) := by decide
/-- V133. -/
theorem test_setField : result (setField .seconds [30] closed) = some .unsupported := by decide

/-! ## Witnesses: values that meet the hypotheses of each statement -/

/-- A well-formed term of every constructor, the bursts at both ends of the lengths every machine has. -/
theorem test_witness_DecodeOfEncode : (Instr.bcdDec 0xFF).wf ∧ (Instr.bcdEnc 0).wf ∧ (Instr.hourDec 0).wf ∧
    (Instr.hourEnc .pm 255).wf ∧ (Instr.hourTo24 .h24 0).wf ∧ (Instr.wrReg 0xFF 0).wf ∧ (Instr.rdReg 0).wf ∧
    (Instr.wrBurst [0xFF]).wf ∧ (Instr.wrBurst [0, 1, 2, 3, 4, 5, 6, 7]).wf ∧ (Instr.rdBurst 0xFF 1).wf ∧
    (Instr.rdBurst 0 8).wf := by simp [Instr.wf, lenOk, Config.bufMax]

theorem test_witness_EncodeOfDecode : decode [0x0B, 0x00, 0xFF, 0x01] = .command (.rdBurst 0xFF 0) [0x01] := by decide

theorem test_witness_ReservedOpcodesRefused :
    ∃ s : State, s.host = [(0x00 : Byte), 0x01] ∧ (0x00 : Byte).toNat = 0x00 ∧ (0x06 : Byte).toNat = 0x06 ∧
      (0x07 : Byte).toNat = 0x07 ∧ 0x0C ≤ (0x0C : Byte).toNat ∧ 0x0C ≤ (0xFF : Byte).toNat :=
  ⟨{ closed with host := [0x00, 0x01] }, by decide⟩

theorem test_witness_ReservedTagsRefused :
    ∃ s : State, s.host = [(0x04 : Byte), 0x03, 0x05] ∧ 3 ≤ (0x03 : Byte).toNat ∧ 3 ≤ (0xFF : Byte).toNat :=
  ⟨{ closed with host := [0x04, 0x03, 0x05] }, by decide⟩

theorem test_witness_BufferLengthRefused :
    ([] : List Byte).length = 0 ∧ Config.bufMax < (List.replicate (Config.bufMax + 1) (0 : Byte)).length ∧
      Config.bufMax < Config.bufMax + 1 := by simp

theorem test_witness_StepRunsDecodedCommand :
    ∃ s : State, decode s.host = .command (.rdReg 0x06) [0x01] ∧ ∃ t : State, t.host = [] :=
  ⟨{ closed with host := [0x0A, 0x06, 0x01] }, by decide, closed, rfl⟩

/-- Every clause at the ends of its range. -/
theorem test_witness_HourDecResult : (0x80 : Byte).getLsbD 7 = true ∧
    ((0x7F : Byte).getLsbD 7 = false ∧ (0x7F : Byte).getLsbD 5 = true) ∧
    ((0x5F : Byte).getLsbD 7 = false ∧ (0x5F : Byte).getLsbD 5 = false) := by decide

theorem test_witness_HourEncResult : (23 : Byte).toNat ≤ 23 ∧ 23 < (24 : Byte).toNat ∧
    (1 ≤ (1 : Byte).toNat ∧ (1 : Byte).toNat ≤ 12) ∧ (1 ≤ (12 : Byte).toNat ∧ (12 : Byte).toNat ≤ 12) ∧
    (0 : Byte).toNat < 1 ∧ 12 < (13 : Byte).toNat ∧ 3 ≤ (0x03 : Byte).toNat := by decide

theorem test_witness_HourRoundTrip : ((HourTag.h24 = .h24 ∧ (23 : Byte).toNat ≤ 23) ∧
    HourTag.pm ≠ .h24 ∧ 1 ≤ (12 : Byte).toNat ∧ (12 : Byte).toNat ≤ 12) := by decide

theorem test_witness_HourImagesDisjoint :
    exec (.hourEnc .pm 12) closed = .next { closed with resp := .byte 0x32 } ∧
    exec (.hourEnc .h24 20) closed = .next { closed with resp := .byte 0xA0 } := ⟨rfl, rfl⟩

theorem test_witness_CodecFrame : isCodec (.bcdDec 0) ∧ isCodec (.bcdEnc 0) ∧ isCodec (.hourDec 0) ∧
    isCodec (.hourEnc .h24 24) ∧ isCodec (.hourTo24 .pm 255) := by decide

theorem test_witness_WrRegResult : opened.verdict = some .ok := by decide

/-- Every clause: gate open, gate closed, each control address, an unmapped one. -/
theorem test_witness_RegisterWriteRule : opened.verdict = some .ok ∧ (0x06 : Byte).toNat ≤ 0x06 ∧
    (opened.reg.ctr2.getLsbD 7 = true ∧ opened.reg.ctr1.getLsbD 7 = true ∧ opened.reg.ctr1.getLsbD 2 = true) ∧
    closed.verdict = some .ok ∧ (0x00 : Byte).toNat ≤ 0x06 ∧
    ¬(closed.reg.ctr2.getLsbD 7 = true ∧ closed.reg.ctr1.getLsbD 7 = true ∧ closed.reg.ctr1.getLsbD 2 = true) ∧
    (0x06 < (0x07 : Byte).toNat ∧ (0x07 : Byte) ≠ 0x0F ∧ (0x07 : Byte) ≠ 0x10 ∧ (0x07 : Byte) ≠ 0x12) ∧
    (0x0F : Byte) ≠ 0x10 := by decide

theorem test_witness_WrBurstResult : lenOk (([] : List Byte).length + 1) = true ∧
    lenOk (([1, 2, 3, 4, 5, 6, 7] : List Byte).length + 1) = true ∧ opened.verdict = some .ok :=
  ⟨by simp [lenOk, Config.bufMax], by simp [lenOk, Config.bufMax], by decide⟩

theorem test_witness_RdRegResult : closed.verdict = some .ok ∧ closed.reg.read? 0x12 = some 0x5A ∧
    closed.reg.read? 0x11 = none := by decide

theorem test_witness_RdBurstResult : lenOk 8 = true ∧ closed.verdict = some .ok ∧
    (1 ≤ 7 ∧ 7 < 8 ∧ closed.reg.read? (effectiveAddress 0x00 7) = some 0x21) ∧
    closed.reg.read? (effectiveAddress 0xFF 2) = some 0x11 :=
  ⟨by simp [lenOk, Config.bufMax], by decide, by decide, by decide⟩

theorem test_witness_FailedWriteStoresPrefix :
    lenOk (([0x30] : List Byte).length + 1) = true ∧ failing.verdict = some (.err err) :=
  ⟨by simp [lenOk, Config.bufMax], by decide⟩

theorem test_witness_FailedReadKeepsRegisters : lenOk 1 = true ∧ failing.verdict = some (.err err) :=
  ⟨by simp [lenOk, Config.bufMax], by decide⟩

theorem test_witness_SilentTransportStops :
    isCodec (.rdReg 0) = false ∧ (Instr.rdReg 0).wf = true ∧ silent.verdict = none := by decide

theorem test_witness_EveryOperationCompletes :
    ((Instr.rdReg 0).wf = true ∧ failing.verdict ≠ none) ∧ (Instr.bcdDec 0).wf = true ∧ isCodec (.bcdDec 0) = true := by
  decide

/-- A next state of a write, of a failed write, of a read and of a codec operation. -/
theorem test_witness_OneFramePerTransfer : (∃ t, exec (.wrReg 0x00 0x30) opened = .next t) ∧
    (∃ t, exec (.wrReg 0x00 0x30) failing = .next t) ∧ (∃ t, exec (.rdReg 0x00) opened = .next t) ∧
    ∃ t, exec (.bcdDec 0) opened = .next t := ⟨⟨_, rfl⟩, ⟨_, rfl⟩, ⟨_, rfl⟩, ⟨_, rfl⟩⟩

theorem test_witness_OperationFrame : (∃ t, exec (.wrBurst [0xFF, 0x01]) opened = .next t) ∧
    (∃ t, exec (.bcdDec 0) opened = .next t) ∧ (0x00 : Byte) ∉ writtenAddresses (.wrBurst [0xFF, 0x01]) ∧ isCodec (.wrBurst [0xFF, 0x01]) = false ∧
    isCodec (.bcdDec 0) = true := by
  have : lenOk 2 = true := by simp [lenOk, Config.bufMax]
  exact ⟨⟨_, by simp only [exec, execWrBurst, List.length_cons, List.length_nil, this]; rfl⟩, ⟨_, rfl⟩,
    by decide, by decide, by decide⟩

/-- A next state of each of the four transfers, the bursts at their shortest. -/
theorem test_witness_TransferSetsLength : (∃ t, exec (.wrReg 0x00 0x30) failing = .next t) ∧
    (∃ t, exec (.wrBurst [0xFF]) opened = .next t) ∧ (∃ t, exec (.rdReg 0xFF) opened = .next t) ∧
    ∃ t, exec (.rdBurst 0xFF 1) opened = .next t := by
  have : lenOk 1 = true := by simp [lenOk, Config.bufMax]
  exact ⟨⟨_, rfl⟩, ⟨_, by simp only [exec, execWrBurst, List.length_nil, this]; rfl⟩, ⟨_, rfl⟩,
    ⟨_, by simp only [exec, execRdBurst, this]; rfl⟩⟩

theorem test_witness_SingleEqualsBurstOfTwo : (∃ t, exec (.rdReg 0x06) closed = .next t ∧ t.resp = .byte 0x21) ∧
    ∃ t, exec (.rdReg 0x06) failing = .next t ∧ t.resp = .busError err := ⟨⟨_, rfl, rfl⟩, _, rfl, rfl⟩

theorem test_witness_BurstEqualsSingleWrites :
    lenOk (([1, 2, 3] : List Byte).length + 1) = true ∧ opened.okFor 4 ∧ lenOk (([] : List Byte).length + 1) = true :=
  ⟨by simp [lenOk, Config.bufMax], rfl, by simp [lenOk, Config.bufMax]⟩

theorem test_witness_ReadAfterWrite : opened.okFor 2 ∧ Reg.year.gated = true ∧ opened.reg.gateOpen = true ∧
    closed.okFor 2 ∧ Reg.trim.gated = false := ⟨rfl, by decide, by decide, rfl, by decide⟩

theorem test_witness_AccessesIdempotent : closed.okFor 2 := rfl

theorem test_witness_CompleteCausesOfErrors : (∃ t, exec (.hourEnc .am 13) closed = .next t) ∧
    ∃ t, exec (.rdReg 0x00) failing = .next t := ⟨⟨_, rfl⟩, _, rfl⟩

theorem test_witness_BufferAndPointerUnobservable :
    ∃ s t : State, SameButBuffer s t ∧ s.ap ≠ t.ap ∧ s.len ≠ t.len :=
  ⟨closed, { closed with ap := 7, len := 3 }, rfl, by decide, by decide⟩

theorem test_witness_StepKeepsInvariant :
    ∃ s t : State, s.Inv ∧ step s = .next t ∧ s.host ≠ t.host := by
  refine ⟨{ closed with host := [0x0A, 0x06] }, _, ⟨?_, ?_⟩, rfl, ?_⟩
  · simp [closed, at', Config.bufMax]
  · simp [closed, at']
  · decide

/-- A gated write against the closed gate. -/
theorem test_witness_ClosedGateProtectsClock : ∃ s t : State, step s = .next t ∧ s.reg.gateOpen = false ∧
    t.reg.gateOpen = false ∧ s.host = [0x08, 0x00, 0x30] :=
  ⟨{ closed with host := [0x08, 0x00, 0x30] }, _, rfl, by decide, by decide, rfl⟩

theorem test_witness_OnlyControlWritesMoveGate : ∃ s t : State, step s = .next t ∧
    ∀ i rest, decode s.host = .command i rest → Reg.ctr1.addr ∉ writtenAddresses i ∧ Reg.ctr2.addr ∉ writtenAddresses i := by
  refine ⟨{ closed with host := [0x08, 0x12, 0x30] }, _, rfl, ?_⟩
  intro i rest h
  have : decode [0x08, 0x12, 0x30] = .command (.wrReg 0x12 0x30) [] := by decide
  rw [this] at h
  cases h
  decide

/-- The getters', WRITE_DISABLE's and TRIM_CLEAR's premises: a carried frame and a failed one. -/
theorem test_witness_getters : closed.timePasses.verdict = some .ok ∧ failing.timePasses.verdict = some (.err err) := by
  decide

/-- GET_HOURS: each of its clauses on a byte. -/
theorem test_witness_GetHoursReturnsTaggedValue : (0xA3 : Byte).getLsbD 7 = true ∧ (0x32 : Byte).getLsbD 7 = false := by
  decide

theorem test_witness_WriteEnableOpensGate : closed.okFor 2 := rfl

theorem test_witness_SetDatetimeWritesClock : 2000 ≤ (2000 : BitVec 16).toNat ∧ (2100 : BitVec 16).toNat ≤ 2100 ∧
    (23 : Byte).toNat ≤ 23 ∧ closed.okFor 5 ∧ closed.still 11 := ⟨by decide, by decide, by decide, rfl, rfl⟩

theorem test_witness_SetDatetimeChecksFirst : (1999 : BitVec 16).toNat < 2000 ∧ 2100 < (2101 : BitVec 16).toNat ∧
    2000 ≤ (2024 : BitVec 16).toNat ∧ (2024 : BitVec 16).toNat ≤ 2100 ∧ 23 < (24 : Byte).toNat := by decide

/-- A state for each failing frame. -/
theorem test_witness_SetDatetimePartialFailure : ∀ n < 5, ∃ s : State, s.still 11 ∧ s.okFor n ∧
    s.answers[n]? = some (some (.err err)) := by
  intro n hn
  refine ⟨at' clock0 0 0 (List.replicate n (some .ok) ++ [some (.err err)]), rfl, ?_, ?_⟩
  · simp [State.okFor, at']
  · simp [at']

theorem test_witness_SetThenGetDatetime : 2000 ≤ (2000 : BitVec 16).toNat ∧ (2100 : BitVec 16).toNat ≤ 2100 ∧
    (23 : Byte).toNat ≤ 23 ∧ closed.okFor 6 ∧ closed.still 20 ∧ (159 : Byte).toNat ≤ 159 ∧ (9 : Byte).toNat ≤ 9 :=
  ⟨by decide, by decide, by decide, rfl, rfl, by decide, by decide⟩

theorem test_witness_WriteSequenceStates : closed.okFor 5 ∧ ∀ n < 5, ∃ s : State, s.okFor n ∧
    s.answers[n]? = some (some (.err err)) := by
  refine ⟨rfl, fun n hn => ?_⟩
  obtain ⟨s, -, h, h'⟩ := test_witness_SetDatetimePartialFailure n hn
  exact ⟨s, h, h'⟩

end Sys2Proof.Tests
end

/-! PROOFS. The two codecs as functions of bytes, what their operations answer, and the three statements on the hour
codec (spec/41_hour_codec.md). -/

namespace Sys2Proof

/-! ### The tag byte and the commands of the hour codec -/

@[simp] theorem tagOfByte_tagByte (tag : HourTag) : tagOfByte (tagByte tag) = some tag := by
  cases tag <;> rfl

theorem tagOfByte_eq_none {t : Byte} (h : 3 ≤ t.toNat) : tagOfByte t = none := by
  unfold tagOfByte
  split
  · omega
  · omega
  · omega
  · rfl

theorem decode_hourEnc_of_tag {t : Byte} {tag : HourTag} (v : Byte) (rest : List Byte)
    (h : tagOfByte t = some tag) : decode (0x04 :: t :: v :: rest) = .command (.hourEnc tag v) rest := by
  change decodeTagged .hourEnc (t :: v :: rest) = _
  simp only [decodeTagged, h]

theorem decode_hourEnc_of_reserved {t : Byte} (v : Byte) (rest : List Byte)
    (h : tagOfByte t = none) : decode (0x04 :: t :: v :: rest) = .rejected (.reservedTag t) := by
  change decodeTagged .hourEnc (t :: v :: rest) = _
  simp only [decodeTagged, h]

end Sys2Proof

namespace Sys2Proof.Machine

/-! ### Packed BCD -/

/-- The decoder computes the value of the two nibbles without loss: 165 fits in 8 bits. -/
theorem bcdDecode_toNat (b : Byte) : (bcdDecode b).toNat = bcdValue b := by
  have htens : b.toNat / 16 < 16 := Nat.div_lt_of_lt_mul b.isLt
  have hfits : b.toNat / 16 * 10 + b.toNat % 16 < 256 := by omega
  simp [bcdDecode, bcdValue, BitVec.extractLsb_toNat, Nat.shiftRight_eq_div_pow, Nat.mod_eq_of_lt htens,
    Nat.mod_eq_of_lt hfits]

/-- The two nibbles do not overlap, so the encoder's OR adds them. -/
theorem bcdEncode_toNat (v : Byte) : (bcdEncode v).toNat = v.toNat / 10 % 16 * 16 + v.toNat % 10 := by
  have hadd := Nat.shiftLeft_add_eq_or_of_lt (show v.toNat % 10 < 2 ^ 4 by omega) (v.toNat / 10 % 16)
  have hhigh : v.toNat / 10 % 16 % 256 * 2 ^ 4 % 256 = v.toNat / 10 % 16 * 2 ^ 4 := by omega
  have hlow : v.toNat % 10 % 256 = v.toNat % 10 := by omega
  rw [Nat.shiftLeft_eq] at hadd
  simp only [bcdEncode, BitVec.toNat_or, BitVec.toNat_shiftLeft, BitVec.toNat_ofNat, Nat.shiftLeft_eq,
    Nat.reducePow, hlow] at hadd hhigh ⊢
  rw [hhigh, ← hadd]

/-- Up to 159 the tens digit fits in its nibble. -/
theorem bcdEncode_toNat_of_le {v : Byte} (h : v.toNat ≤ 159) :
    (bcdEncode v).toNat = v.toNat / 10 * 16 + v.toNat % 10 := by
  rw [bcdEncode_toNat, Nat.mod_eq_of_lt (by omega : v.toNat / 10 < 16)]

theorem bcdDecode_bcdEncode {v : Byte} (h : v.toNat ≤ 159) : bcdDecode (bcdEncode v) = v := by
  apply BitVec.eq_of_toNat_eq
  rw [bcdDecode, BitVec.toNat_ofNat, bcdEncode_toNat_of_le h]
  omega

/-! ### The layout of an hour byte -/

theorem getLsbD_of_toNat_lt {e : Byte} {k i : Nat} (he : e.toNat < 2 ^ k) (hi : k ≤ i) : e.getLsbD i = false :=
  Nat.testBit_lt_two_pow (he.trans_le (Nat.pow_le_pow_right (by decide) hi))

/-- A mask that keeps the low `k` bits keeps a number of `k` bits whole. -/
theorem and_mask_of_toNat_lt {e m : Byte} {k : Nat} (he : e.toNat < 2 ^ k)
    (hm : ∀ i < k, m.getLsbD i = true) : e &&& m = e := by
  apply BitVec.eq_of_getLsbD_eq
  intro i _
  rw [BitVec.getLsbD_and]
  rcases Nat.lt_or_ge i k with hi | hi
  · rw [hm i hi, Bool.and_true]
  · rw [getLsbD_of_toNat_lt he hi, Bool.false_and]

theorem hourDecode_of_mode {b : Byte} (h7 : b.getLsbD 7 = true) :
    hourDecode b = (.h24, bcdDecode (b &&& 0x7F)) := by
  rw [hourDecode, if_pos h7]

theorem hourDecode_of_pm {b : Byte} (h7 : b.getLsbD 7 = false) (h5 : b.getLsbD 5 = true) :
    hourDecode b = (.pm, bcdDecode (b &&& 0x5F)) := by
  rw [hourDecode, if_neg (Bool.eq_false_iff.1 h7), if_pos h5]

theorem hourDecode_of_am {b : Byte} (h7 : b.getLsbD 7 = false) (h5 : b.getLsbD 5 = false) :
    hourDecode b = (.am, bcdDecode (b &&& 0x5F)) := by
  rw [hourDecode, if_neg (Bool.eq_false_iff.1 h7), if_neg (Bool.eq_false_iff.1 h5)]

/-- Bit 7 added to a byte below 0x80 marks the 24-hour layout, and its mask takes it off again. -/
theorem hourDecode_or_mode {e : Byte} (he : e.toNat < 2 ^ 7) : hourDecode (e ||| 0x80) = (.h24, bcdDecode e) := by
  have hmask : (e ||| 0x80) &&& 0x7F = e := by
    rw [BitVec.and_or_distrib_right, and_mask_of_toNat_lt he (by decide)]
    exact BitVec.or_zero
  rw [hourDecode_of_mode (by simp), hmask]

/-- Bit 5 added to a byte below 0x20 marks PM, and the masks take it off again. -/
theorem hourDecode_or_pm {e : Byte} (he : e.toNat < 2 ^ 5) : hourDecode (e ||| 0x20) = (.pm, bcdDecode e) := by
  have hmask : (e ||| 0x20) &&& 0x5F = e := by
    rw [BitVec.and_or_distrib_right, and_mask_of_toNat_lt he (by decide)]
    exact BitVec.or_zero
  have h7 : (e ||| 0x20).getLsbD 7 = false := by
    rw [BitVec.getLsbD_or, getLsbD_of_toNat_lt he (by decide)]
    rfl
  rw [hourDecode_of_pm h7 (by simp), hmask]

/-- A byte below 0x20 has neither mode bit: it is AM. -/
theorem hourDecode_of_toNat_lt {e : Byte} (he : e.toNat < 2 ^ 5) : hourDecode e = (.am, bcdDecode e) := by
  rw [hourDecode_of_am (getLsbD_of_toNat_lt he (by decide)) (getLsbD_of_toNat_lt he (by decide)),
    and_mask_of_toNat_lt he (by decide)]

theorem hourInRange_h24 {v : Byte} : hourInRange .h24 v = true ↔ v.toNat ≤ 23 := by
  simp [hourInRange]

theorem hourInRange_twelve {tag : HourTag} {v : Byte} (h : tag ≠ .h24) :
    hourInRange tag v = true ↔ 1 ≤ v.toNat ∧ v.toNat ≤ 12 := by
  cases tag with
  | h24 => exact absurd rfl h
  | am | pm => simp [hourInRange]

theorem toNat_le_of_hourInRange {tag : HourTag} {v : Byte} (h : hourInRange tag v = true) : v.toNat ≤ 23 := by
  by_cases htag : tag = .h24
  · subst htag
    exact hourInRange_h24.1 h
  · obtain ⟨-, hv⟩ := (hourInRange_twelve htag).1 h
    omega

/-- The round trip (spec/41_hour_codec.md R103): the encoded digits stay below the mode bits that are added. -/
theorem hourDecode_hourEncode {tag : HourTag} {v : Byte} (h : hourInRange tag v = true) :
    hourDecode (hourEncode tag v) = (tag, v) := by
  have hle := toNat_le_of_hourInRange h
  have he := bcdEncode_toNat_of_le (v := v) (by omega)
  have hback := bcdDecode_bcdEncode (v := v) (by omega)
  cases tag with
  | h24 => rw [hourEncode, hourDecode_or_mode (by omega), hback]
  | am =>
    obtain ⟨-, hv⟩ := (hourInRange_twelve (by decide)).1 h
    rw [hourEncode, hourDecode_of_toNat_lt (by omega), hback]
  | pm =>
    obtain ⟨-, hv⟩ := (hourInRange_twelve (by decide)).1 h
    rw [hourEncode, hourDecode_or_pm (by omega), hback]

/-! ### What the operations answer -/

theorem exec_bcdEnc (v : Byte) (s : State) :
    exec (.bcdEnc v) s = .next { s with resp := .byte (bcdEncode v) } := rfl

theorem exec_hourDec (b : Byte) (s : State) :
    exec (.hourDec b) s = .next { s with resp := .hour (hourDecode b).1 (hourDecode b).2 } := rfl

theorem exec_hourEnc_of_inRange {tag : HourTag} {v : Byte} (s : State) (h : hourInRange tag v = true) :
    exec (.hourEnc tag v) s = .next { s with resp := .byte (hourEncode tag v) } :=
  if_pos h

theorem exec_hourEnc_of_outOfRange {tag : HourTag} {v : Byte} (s : State) (h : ¬ hourInRange tag v = true) :
    exec (.hourEnc tag v) s = .next { s with resp := .invalidInputData } :=
  if_neg h

theorem exec_hourEnc_twelve_outOfRange {tag : HourTag} {v : Byte} (s : State) (htag : tag ≠ .h24)
    (h : v.toNat < 1 ∨ 12 < v.toNat) : exec (.hourEnc tag v) s = .next { s with resp := .invalidInputData } :=
  exec_hourEnc_of_outOfRange s (by rw [hourInRange_twelve htag]; omega)

/-! ### The statements -/

/-- Settles O15: HOUR.DEC undoes HOUR.ENC on its range; AM(0), which 0x00 decodes to, is outside that range. -/
theorem hourRoundTrip : Obligations.HourRoundTrip := by
  refine ⟨fun tag v s h => ?_, fun s => ⟨rfl, rfl⟩⟩
  have hin : hourInRange tag v = true := by
    rcases h with ⟨rfl, hv⟩ | ⟨htag, hv⟩
    · exact hourInRange_h24.2 hv
    · exact (hourInRange_twelve htag).2 hv
  refine ⟨hourEncode tag v, exec_hourEnc_of_inRange s hin, ?_⟩
  rw [exec_hourDec, hourDecode_hourEncode hin]

/-- Settles O12, by the two mode bits in the order HOUR.DEC tests them. -/
theorem hourDecResult : Obligations.HourDecResult := by
  intro b s
  refine ⟨rfl, _, _, exec_hourDec b s, ?_, ?_, ?_⟩
  · intro h7
    rw [hourDecode_of_mode h7]
    exact ⟨rfl, bcdDecode_toNat _⟩
  · intro h7 h5
    rw [hourDecode_of_pm h7 h5]
    exact ⟨rfl, bcdDecode_toNat _⟩
  · intro h7 h5
    rw [hourDecode_of_am h7 h5]
    exact ⟨rfl, bcdDecode_toNat _⟩

/-- Settles O13: the command by its tag byte, then each layout on both sides of its range. -/
theorem hourEncResult : Obligations.HourEncResult := by
  intro v s
  refine ⟨fun tag => ?_, fun t ht => ?_, fun hv => ?_, fun hv => ?_, fun h1 h12 => ?_, fun hv => ?_⟩
  · exact decode_hourEnc_of_tag v [] (tagOfByte_tagByte tag)
  · exact decode_hourEnc_of_reserved v [] (tagOfByte_eq_none ht)
  · exact ⟨_, exec_bcdEnc v s, exec_hourEnc_of_inRange s (hourInRange_h24.2 hv)⟩
  · exact exec_hourEnc_of_outOfRange s (by rw [hourInRange_h24]; omega)
  · exact ⟨_, exec_bcdEnc v s, exec_hourEnc_of_inRange s ((hourInRange_twelve (by decide)).2 ⟨h1, h12⟩),
      exec_hourEnc_of_inRange s ((hourInRange_twelve (by decide)).2 ⟨h1, h12⟩)⟩
  · exact ⟨exec_hourEnc_twelve_outOfRange s (by decide) hv, exec_hourEnc_twelve_outOfRange s (by decide) hv⟩

end Sys2Proof.Machine

/-! PROOFS. The clock driver's sequences: what one issued operation does by the transport's verdict, and the
statements on the getters, WRITE_DISABLE and the unsupported setters (spec/43_driver_sequences.md). -/

namespace Sys2Proof.Machine

/-! ### The transfers by the transport's verdict -/

theorem transfer_of_verdict {s : State} {v : Verdict} (h : s.verdict = some v) (f : Frame)
    (ending : Verdict → State → State) : s.transfer f ending = .next (ending v (s.asked f)) := by
  simp only [State.transfer, h]

/-- A read that the transport carried: its frame is on record, and the buffer it answers from holds the stored byte
of every mapped register it covers, all from one register state. -/
theorem readTransfer_ok {s : State} (h : s.verdict = some .ok) (a : Byte) (n : Nat) (answer : State → Response) :
    ∃ t u, readTransfer a n answer s = .next t ∧ t.frames = s.frames ++ [.wr Config.devAddr a n] ∧
      t.resp = answer u ∧ u.len = n + 1 ∧
      ∀ j < n, ∀ x : Reg, effectiveAddress a (j + 1) = x.addr → u.bufAt (j + 1) = s.reg.get x := by
  obtain ⟨vs, m, hl, hv, hend⟩ := endRead_ok a n answer (s.asked (.wr Config.devAddr a n))
  refine ⟨_, _, (transfer_of_verdict h _ _).trans (congrArg _ hend), asked_frames s _, rfl, rfl, ?_⟩
  intro j hj x hx
  have hbyte : vs[j]? = some (s.reg.get x) := hv j hj _ (by rw [hx, asked_reg, read?_addr])
  simp [State.bufAt, List.getElem?_append_left (hl ▸ hj : j < vs.length), hbyte]

/-- A read that failed: its frame is on record, and the response is the transport's error. -/
theorem readTransfer_err {s : State} {e : BusErr} (h : s.verdict = some (.err e)) (a : Byte) (n : Nat)
    (answer : State → Response) : ∃ t, readTransfer a n answer s = .next t ∧
      t.frames = s.frames ++ [.wr Config.devAddr a n] ∧ t.resp = .busError e := by
  obtain ⟨vs, x, m, -, hend⟩ := endRead_err a n answer e (s.asked (.wr Config.devAddr a n))
  exact ⟨_, (transfer_of_verdict h _ _).trans (congrArg _ hend), asked_frames s _, rfl⟩

theorem writeTransfer_of_verdict {s : State} {v : Verdict} (h : s.verdict = some v) (a : Byte) (data : List Byte) :
    writeTransfer a data s =
      .next (endWrite a data v ((s.loadBuf (a :: data)).asked (.w Config.devAddr (a :: data)))) :=
  transfer_of_verdict (s := s.loadBuf (a :: data)) h _ _

/-- Eight elements fit in every buffer. -/
theorem lenOk_of_le_eight {n : Nat} (h1 : 1 ≤ n) (h8 : n ≤ 8) : lenOk n = true := by
  rw [lenOk_iff, Config.bufMax]
  omega

theorem exec_rdBurst {n : Nat} (hn : lenOk (n + 1) = true) (a : Byte) (s : State) :
    exec (.rdBurst a (n + 1)) s = readTransfer a n (fun t => .buf (t.buf.take t.len)) s :=
  if_pos hn

theorem exec_wrBurst {data : List Byte} (hn : lenOk (data.length + 1) = true) (a : Byte) (s : State) :
    exec (.wrBurst (a :: data)) s = writeTransfer a data s :=
  if_pos hn

/-! ### One issued operation

The rules hold for every continuation, so that a sequence is run from its front by rewriting. -/

/-- An operation that answers with status OK hands its response on. -/
theorem issue_of_ok {i : Instr} {s t : State} (h : exec i s.timePasses = .next t) (hr : t.resp.failure = none)
    (andThen : Response → State → Ended) : issue i s andThen = andThen t.resp t := by
  simp only [issue, h, hr]

/-- An operation that answers with another status ends the sequence (spec/43_driver_sequences.md R130). -/
theorem issue_of_failure {i : Instr} {s t : State} {r : Result} (h : exec i s.timePasses = .next t)
    (hr : t.resp.failure = some r) (andThen : Response → State → Ended) :
    issue i s andThen = .next (t, r) := by
  simp only [issue, h, hr]

theorem issue_bcdDec (b : Byte) (s : State) (andThen : Response → State → Ended) :
    issue (.bcdDec b) s andThen = andThen (.val (bcdDecode b)) (s.timePasses.respond (.val (bcdDecode b))) :=
  issue_of_ok (t := s.timePasses.respond _) rfl rfl andThen

theorem issue_hourDec (b : Byte) (s : State) (andThen : Response → State → Ended) :
    issue (.hourDec b) s andThen = andThen (.hour (hourDecode b).1 (hourDecode b).2)
      (s.timePasses.respond (.hour (hourDecode b).1 (hourDecode b).2)) :=
  issue_of_ok (t := s.timePasses.respond _) rfl rfl andThen

theorem issue_hourTo24 (tag : HourTag) (v : Byte) (s : State) (andThen : Response → State → Ended) :
    issue (.hourTo24 tag v) s andThen = andThen (.val9 (hourTo24 tag v))
      (s.timePasses.respond (.val9 (hourTo24 tag v))) :=
  issue_of_ok (t := s.timePasses.respond _) rfl rfl andThen

/-- RD.REG of a mapped register, its frame carried: the stored byte goes on. -/
theorem issue_rdReg_ok {s : State} (h : s.timePasses.verdict = some .ok) (x : Reg) :
    ∃ t : State, t.frames = s.frames ++ [.wr Config.devAddr x.addr 1] ∧
      ∀ andThen, issue (.rdReg x.addr) s andThen = andThen (.byte (s.timePasses.reg.get x)) t := by
  obtain ⟨t, u, hexec, hframes, hresp, -, hbytes⟩ := readTransfer_ok h x.addr 1 (fun t => .byte (t.bufAt 1))
  rw [hbytes 0 Nat.one_pos x (effectiveAddress_one _)] at hresp
  refine ⟨t, by rw [hframes, timePasses_frames], fun andThen => ?_⟩
  rw [issue_of_ok (i := .rdReg x.addr) hexec (by rw [hresp]; rfl), hresp]

theorem issue_rdReg_err {s : State} {e : BusErr} (h : s.timePasses.verdict = some (.err e)) (a : Byte) :
    ∃ t : State, t.frames = s.frames ++ [.wr Config.devAddr a 1] ∧
      ∀ andThen, issue (.rdReg a) s andThen = .next (t, .busError e) := by
  obtain ⟨t, hexec, hframes, hresp⟩ := readTransfer_err h a 1 (fun t => .byte (t.bufAt 1))
  exact ⟨t, by rw [hframes, timePasses_frames], issue_of_failure hexec (by rw [hresp]; rfl)⟩

/-- RD.BURST, its frame carried: a response goes on whose data bytes are the stored bytes of the mapped registers the
burst covers, all from one register state. -/
theorem issue_rdBurst_ok {s : State} {n : Nat} (hn : lenOk (n + 1) = true) (h : s.timePasses.verdict = some .ok)
    (a : Byte) : ∃ (t : State) (r : Response), t.frames = s.frames ++ [.wr Config.devAddr a n] ∧
      (∀ j < n, ∀ x : Reg, effectiveAddress a (j + 1) = x.addr →
        r.bufField (j + 1) = s.timePasses.reg.get x) ∧
      ∀ andThen, issue (.rdBurst a (n + 1)) s andThen = andThen r t := by
  obtain ⟨t, u, hexec, hframes, hresp, hlen, hbytes⟩ :=
    readTransfer_ok h a n (fun t => .buf (t.buf.take t.len))
  rw [← exec_rdBurst hn] at hexec
  refine ⟨t, t.resp, by rw [hframes, timePasses_frames], fun j hj x hx => ?_, ?_⟩
  · have htake : (u.buf.take u.len).getD (j + 1) 0 = u.bufAt (j + 1) := by
      rw [State.bufAt, List.getD_eq_getElem?_getD, List.getElem?_take_of_lt (by omega),
        List.getD_eq_getElem?_getD]
    rw [hresp, ← hbytes j hj x hx, ← htake]
    rfl
  · exact issue_of_ok hexec (by rw [hresp]; rfl)

theorem issue_rdBurst_err {s : State} {e : BusErr} {n : Nat} (hn : lenOk (n + 1) = true)
    (h : s.timePasses.verdict = some (.err e)) (a : Byte) :
    ∃ t : State, t.frames = s.frames ++ [.wr Config.devAddr a n] ∧
      ∀ andThen, issue (.rdBurst a (n + 1)) s andThen = .next (t, .busError e) := by
  obtain ⟨t, hexec, hframes, hresp⟩ := readTransfer_err h a n (fun t => .buf (t.buf.take t.len))
  rw [← exec_rdBurst hn] at hexec
  exact ⟨t, by rw [hframes, timePasses_frames], issue_of_failure hexec (by rw [hresp]; rfl)⟩

/-! ### The numbers a sequence makes of its fields -/

/-- The weekday is exact: 256 fits in 9 bits. -/
theorem weekdayOf_toNat (v : BitVec 8) : (weekdayOf v).toNat = v.toNat + 1 := by
  rw [weekdayOf]
  bv_omega

/-- The year is exact: 2255 fits in 12 bits. -/
theorem yearOf_toNat (v : BitVec 8) : (yearOf v).toNat = 2000 + v.toNat := by
  rw [yearOf]
  bv_omega

theorem hourTo24_toNat_of_ne_pm {tag : HourTag} (h : tag ≠ .pm) (v : Byte) : (hourTo24 tag v).toNat = v.toNat := by
  cases tag with
  | h24 | am => rw [hourTo24]; bv_omega
  | pm => exact absurd rfl h

/-- The afternoon's hour is exact: 267 fits in 9 bits. -/
theorem hourTo24_toNat_pm (v : Byte) : (hourTo24 .pm v).toNat = v.toNat + 12 := by
  rw [hourTo24]
  bv_omega

/-- HOUR.DEC, then HOUR.TO24, by the two mode bits of the hour byte. -/
theorem hourTo24_hourDecode_toNat (b : Byte) :
    (hourTo24 (hourDecode b).1 (hourDecode b).2).toNat = hourNumber b := by
  cases h7 : b.getLsbD 7 with
  | true =>
    rw [hourDecode_of_mode h7, hourTo24_toNat_of_ne_pm HourTag.noConfusion, bcdDecode_toNat, hourNumber,
      if_pos h7]
  | false =>
    rw [hourNumber, h7, if_neg Bool.false_ne_true]
    cases h5 : b.getLsbD 5 with
    | true => rw [hourDecode_of_pm h7 h5, hourTo24_toNat_pm, bcdDecode_toNat, if_pos rfl]
    | false =>
      rw [hourDecode_of_am h7 h5, hourTo24_toNat_of_ne_pm HourTag.noConfusion, bcdDecode_toNat,
        if_neg Bool.false_ne_true]

theorem weekdayOf_bcdDecode_toNat (b : Byte) : (weekdayOf (bcdDecode b)).toNat = bcdValue b + 1 := by
  rw [weekdayOf_toNat, bcdDecode_toNat]

theorem yearOf_bcdDecode_toNat (b : Byte) : (yearOf (bcdDecode b)).toNat = 2000 + bcdValue b := by
  rw [yearOf_toNat, bcdDecode_toNat]

/-! ### The snapshot getters

Each reads its block with one burst; the codec operations that follow send no frame and read no register. -/

/-- Settles O46: data bytes 1 to 3 of the burst are SEC, MIN and HOUR. -/
theorem getTimeReadsOneSnapshot : Obligations.GetTimeReadsOneSnapshot := by
  rintro s c rfl
  have hlen : lenOk (3 + 1) = true := lenOk_of_le_eight (by decide) (by decide)
  refine ⟨fun hok => ?_, fun e herr => ?_⟩
  · obtain ⟨t, r, hframes, hbytes, hburst⟩ := issue_rdBurst_ok hlen hok 0x00
    have hsec : r.bufField 1 = s.timePasses.reg.clock.sec := hbytes 0 (by decide) .sec rfl
    have hmin : r.bufField 2 = s.timePasses.reg.clock.min := hbytes 1 (by decide) .min rfl
    have hhour : r.bufField 3 = s.timePasses.reg.clock.hour := hbytes 2 (by decide) .hour rfl
    have hrun : getTime s = _ := hburst _
    simp only [issue_bcdDec, issue_hourDec, issue_hourTo24, hsec, hmin, hhour] at hrun
    exact ⟨_, _, _, _, hrun, hourTo24_hourDecode_toNat _, bcdDecode_toNat _, bcdDecode_toNat _, by simp [hframes]⟩
  · obtain ⟨t, hframes, hburst⟩ := issue_rdBurst_err hlen herr 0x00
    exact ⟨t, hburst _, hframes⟩

/-- Settles O47: data bytes 1 to 3 of the burst are DOM, MON and YEAR. -/
theorem getDateReadsOneSnapshot : Obligations.GetDateReadsOneSnapshot := by
  rintro s c rfl
  have hlen : lenOk (3 + 1) = true := lenOk_of_le_eight (by decide) (by decide)
  refine ⟨fun hok => ?_, fun e herr => ?_⟩
  · obtain ⟨t, r, hframes, hbytes, hburst⟩ := issue_rdBurst_ok hlen hok 0x04
    have hdom : r.bufField 1 = s.timePasses.reg.clock.dom := hbytes 0 (by decide) .dom rfl
    have hmon : r.bufField 2 = s.timePasses.reg.clock.mon := hbytes 1 (by decide) .mon rfl
    have hyear : r.bufField 3 = s.timePasses.reg.clock.year := hbytes 2 (by decide) .year rfl
    have hrun : getDate s = _ := hburst _
    simp only [issue_bcdDec, hdom, hmon, hyear] at hrun
    exact ⟨_, _, _, _, hrun, yearOf_bcdDecode_toNat _, bcdDecode_toNat _, bcdDecode_toNat _, by simp [hframes]⟩
  · obtain ⟨t, hframes, hburst⟩ := issue_rdBurst_err hlen herr 0x04
    exact ⟨t, hburst _, hframes⟩

/-- Settles O48: data bytes 1 to 7 of the burst are the clock block in address order. -/
theorem getDatetimeReadsOneSnapshot : Obligations.GetDatetimeReadsOneSnapshot := by
  rintro s c rfl
  have hlen : lenOk (7 + 1) = true := lenOk_of_le_eight (by decide) (by decide)
  refine ⟨fun hok => ?_, fun e herr => ?_⟩
  · obtain ⟨t, r, hframes, hbytes, hburst⟩ := issue_rdBurst_ok hlen hok 0x00
    have hsec : r.bufField 1 = s.timePasses.reg.clock.sec := hbytes 0 (by decide) .sec rfl
    have hmin : r.bufField 2 = s.timePasses.reg.clock.min := hbytes 1 (by decide) .min rfl
    have hhour : r.bufField 3 = s.timePasses.reg.clock.hour := hbytes 2 (by decide) .hour rfl
    have hdow : r.bufField 4 = s.timePasses.reg.clock.dow := hbytes 3 (by decide) .dow rfl
    have hdom : r.bufField 5 = s.timePasses.reg.clock.dom := hbytes 4 (by decide) .dom rfl
    have hmon : r.bufField 6 = s.timePasses.reg.clock.mon := hbytes 5 (by decide) .mon rfl
    have hyear : r.bufField 7 = s.timePasses.reg.clock.year := hbytes 6 (by decide) .year rfl
    have hrun : getDatetime s = _ := hburst _
    simp only [issue_bcdDec, issue_hourDec, issue_hourTo24, hsec, hmin, hhour, hdow, hdom, hmon, hyear] at hrun
    exact ⟨_, _, _, _, _, _, _, _, hrun, yearOf_bcdDecode_toNat _, bcdDecode_toNat _, bcdDecode_toNat _,
      weekdayOf_bcdDecode_toNat _, hourTo24_hourDecode_toNat _, bcdDecode_toNat _, bcdDecode_toNat _,
      by simp [hframes]⟩
  · obtain ⟨t, hframes, hburst⟩ := issue_rdBurst_err hlen herr 0x00
    exact ⟨t, hburst _, hframes⟩

/-! ### The single getters -/

/-- A getter that reads one register and goes on, without a frame, to a result its byte shows. -/
theorem readsRegister_of_decodes {x : Reg} {shows : Byte → Result → Prop} {decodes : Response → State → Ended}
    (h : ∀ b t, ∃ u r, decodes (.byte b) t = .next (u, r) ∧ shows b r ∧ u.frames = t.frames) :
    ReadsRegister (fun s => issue (.rdReg x.addr) s decodes) x shows := by
  intro s
  refine ⟨fun hok => ?_, fun e herr => ?_⟩
  · obtain ⟨t, hframes, hread⟩ := issue_rdReg_ok hok x
    obtain ⟨u, r, hend, hshows, hkeep⟩ := h (s.timePasses.reg.get x) t
    exact ⟨u, r, (hread decodes).trans hend, hshows, hkeep.trans hframes⟩
  · obtain ⟨t, hframes, hread⟩ := issue_rdReg_err herr x.addr
    exact ⟨t, hread decodes, hframes⟩

theorem readsRegister_getBcd (x : Reg) (result : BitVec 8 → Result) {shows : Byte → Result → Prop}
    (h : ∀ b, shows b (result (bcdDecode b))) : ReadsRegister (getBcd x.addr result) x shows :=
  readsRegister_of_decodes fun b t =>
    ⟨t.timePasses.respond _, _, issue_bcdDec b t _, h b, timePasses_frames t⟩

theorem readsRegister_getHours {shows : Byte → Result → Prop}
    (h : ∀ b, shows b (.hour (hourDecode b).1 (hourDecode b).2)) : ReadsRegister getHours .hour shows :=
  readsRegister_of_decodes (x := .hour) fun b t =>
    ⟨t.timePasses.respond _, _, issue_hourDec b t _, h b, timePasses_frames t⟩

/-- Settles O42: the four registers whose number is the decoded byte itself. -/
theorem bcdGettersReadTheirRegister : Obligations.BcdGettersReadTheirRegister := by
  have hnumber : ∀ b, ∃ v, Result.number (bcdDecode b) = .number v ∧ v.toNat = bcdValue b :=
    fun b => ⟨_, rfl, bcdDecode_toNat b⟩
  exact ⟨readsRegister_getBcd .sec .number hnumber, readsRegister_getBcd .min .number hnumber,
    readsRegister_getBcd .dom .number hnumber, readsRegister_getBcd .mon .number hnumber⟩

/-- Settles O43, by the two mode bits of the hour byte. -/
theorem getHoursReturnsTaggedValue : Obligations.GetHoursReturnsTaggedValue := by
  refine readsRegister_getHours fun b => ⟨_, _, rfl, fun h7 => ?_, fun h7 => ?_⟩
  · rw [hourDecode_of_mode h7]
    exact ⟨rfl, bcdDecode_toNat _⟩
  · cases h5 : b.getLsbD 5 with
    | true =>
      rw [hourDecode_of_pm h7 h5]
      exact ⟨by simp, by simp, bcdDecode_toNat _⟩
    | false =>
      rw [hourDecode_of_am h7 h5]
      exact ⟨by simp, by simp, bcdDecode_toNat _⟩

/-- Settles O44: the BCD getter of DOW, its number exact on 9 bits. -/
theorem getWeekdayAddsOne : Obligations.GetWeekdayAddsOne :=
  readsRegister_getBcd .dow (fun v => .weekday (weekdayOf v)) fun b => ⟨_, rfl, weekdayOf_bcdDecode_toNat b⟩

/-- Settles O45: the BCD getter of YEAR, its number exact on 12 bits. -/
theorem getYearAddsBase : Obligations.GetYearAddsBase :=
  readsRegister_getBcd .year (fun v => .year (yearOf v)) fun b => ⟨_, rfl, yearOf_bcdDecode_toNat b⟩

/-! ### WRITE_DISABLE and the setters -/

/-- The burst of two zeros from 0x0F clears both control registers, which no gate covers. -/
theorem writeRun_control_zeros (r : Regs) : writeRun 0x0F [0x00, 0x00] r = { r with ctr1 := 0x00, ctr2 := 0x00 } :=
  rfl

/-- Without WE1 the gate is closed. -/
theorem gateOpen_of_ctr2_zero {r : Regs} (h : r.ctr2 = 0x00) : r.gateOpen = false := by
  simp [Regs.gateOpen, Regs.we1, h]

/-- Settles O50: the burst is carried whole, or its error is handed on. -/
theorem writeDisableClosesGate : Obligations.WriteDisableClosesGate := by
  intro s
  have hlen : lenOk (2 + 1) = true := lenOk_of_le_eight (by decide) (by decide)
  have hexec : ∀ v, s.timePasses.verdict = some v → exec (.wrBurst [0x0F, 0x00, 0x00]) s.timePasses = .next _ :=
    fun v hv => (exec_wrBurst (data := [0x00, 0x00]) hlen 0x0F _).trans (writeTransfer_of_verdict hv 0x0F _)
  refine ⟨fun hok => ?_, fun e herr => ?_⟩
  · have hcarried := hexec .ok hok
    rw [endWrite_ok, asked_reg, loadBuf_reg, writeRun_control_zeros] at hcarried
    exact ⟨_, issue_of_ok hcarried rfl _, rfl, gateOpen_of_ctr2_zero rfl, rfl, by simp⟩
  · obtain ⟨k, x, n, -, hend⟩ := endWrite_err 0x0F [0x00, 0x00] e _
    exact ⟨_, issue_of_failure ((hexec _ herr).trans (congrArg _ hend)) rfl _⟩

/-- Settles O57: the setters' own definition. -/
theorem fieldSettersUnsupported : Obligations.FieldSettersUnsupported :=
  fun _ _ _ => rfl

end Sys2Proof.Machine

/-! PROOFS. Commands: the decoder and the encoder undo each other, what is refused, and what one step runs
(spec/30_encoding.md sections 3 to 5). -/

namespace Sys2Proof

/-! ### The formats forwards: operand bytes give their instruction -/

theorem decodeTagged_of_tag {t : Byte} {tag : HourTag} (f : HourTag → Byte → Instr) (v : Byte) (rest : List Byte)
    (h : tagOfByte t = some tag) : decodeTagged f (t :: v :: rest) = .command (f tag v) rest := by
  simp only [decodeTagged, h]

theorem decodeTagged_of_reserved {t : Byte} (f : HourTag → Byte → Instr) (v : Byte) (rest : List Byte)
    (h : tagOfByte t = none) : decodeTagged f (t :: v :: rest) = .rejected (.reservedTag t) := by
  simp only [decodeTagged, h]

/-- A length byte and as many bytes. -/
theorem decodeCW_of_length {l : Byte} {buffer : List Byte} (f : List Byte → Instr) (rest : List Byte)
    (h : buffer.length = l.toNat) : decodeCW f (l :: (buffer ++ rest)) = .command (f buffer) rest := by
  simp only [decodeCW, takeBytes_eq_some.2 ⟨rfl, h⟩]

/-- A length below 256 is its own length byte. -/
theorem toNat_ofNat_of_lenOk {n : Nat} (h : lenOk n = true) : (BitVec.ofNat 8 n).toNat = n := by
  obtain ⟨-, -, hbyte⟩ := (Machine.lenOk_iff n).1 h
  rw [BitVec.toNat_ofNat, Nat.mod_eq_of_lt hbyte]

/-- Settles O2, by the instruction's format; a burst's length is one byte because the instruction is well-formed. -/
theorem decodeOfEncode : Obligations.DecodeOfEncode := by
  intro i rest hwf
  cases i with
  | bcdDec b => rfl
  | bcdEnc v => rfl
  | hourDec b => rfl
  | hourEnc tag v => exact decodeTagged_of_tag .hourEnc v rest (tagOfByte_tagByte tag)
  | hourTo24 tag v => exact decodeTagged_of_tag .hourTo24 v rest (tagOfByte_tagByte tag)
  | wrReg a d => rfl
  | wrBurst bytes => exact decodeCW_of_length .wrBurst rest (toNat_ofNat_of_lenOk hwf).symm
  | rdReg a => rfl
  | rdBurst a len =>
    change Decoded.command (.rdBurst a (BitVec.ofNat 8 len).toNat) rest = _
    rw [toNat_ofNat_of_lenOk hwf]

/-! ### The formats backwards: the bytes a command was read from -/

theorem eq_tagByte_of_tagOfByte {t : Byte} {tag : HourTag} (h : tagOfByte t = some tag) : t = tagByte tag := by
  unfold tagOfByte at h
  split at h <;> cases h <;> exact BitVec.eq_of_toNat_eq ‹_›

theorem decodeC1_eq_command {f : Byte → Instr} {bytes : List Byte} {i : Instr} {rest : List Byte}
    (h : decodeC1 f bytes = .command i rest) : ∃ x, i = f x ∧ bytes = x :: rest := by
  unfold decodeC1 at h
  split at h <;> cases h
  exact ⟨_, rfl, rfl⟩

theorem decodeC2_eq_command {f : Byte → Byte → Instr} {bytes : List Byte} {i : Instr} {rest : List Byte}
    (h : decodeC2 f bytes = .command i rest) : ∃ x y, i = f x y ∧ bytes = x :: y :: rest := by
  unfold decodeC2 at h
  split at h <;> cases h
  exact ⟨_, _, rfl, rfl⟩

theorem decodeTagged_eq_command {f : HourTag → Byte → Instr} {bytes : List Byte} {i : Instr} {rest : List Byte}
    (h : decodeTagged f bytes = .command i rest) : ∃ tag v, i = f tag v ∧ bytes = tagByte tag :: v :: rest := by
  unfold decodeTagged at h
  split at h
  · split at h
    next tag htag =>
      cases h
      exact ⟨tag, _, rfl, by rw [eq_tagByte_of_tagOfByte htag]⟩
    next => cases h
  · cases h

theorem decodeCW_eq_command {f : List Byte → Instr} {bytes : List Byte} {i : Instr} {rest : List Byte}
    (h : decodeCW f bytes = .command i rest) :
    ∃ buffer, i = f buffer ∧ bytes = BitVec.ofNat 8 buffer.length :: (buffer ++ rest) := by
  unfold decodeCW at h
  split at h
  · split at h <;> cases h
    obtain ⟨rfl, hlen⟩ := takeBytes_eq_some.1 ‹_›
    exact ⟨_, rfl, by rw [hlen, BitVec.ofNat_toNat, BitVec.setWidth_eq]⟩
  · cases h

theorem decodeCR_eq_command {f : Byte → Nat → Instr} {bytes : List Byte} {i : Instr} {rest : List Byte}
    (h : decodeCR f bytes = .command i rest) : ∃ a len, i = f a len ∧ bytes = BitVec.ofNat 8 len :: a :: rest := by
  unfold decodeCR at h
  split at h <;> cases h
  exact ⟨_, _, rfl, by rw [BitVec.ofNat_toNat, BitVec.setWidth_eq]⟩

/-- A command has an opcode byte, and its operand bytes follow. -/
theorem decode_eq_command {bytes : List Byte} {i : Instr} {rest : List Byte} (h : decode bytes = .command i rest) :
    ∃ op operands, bytes = op :: operands ∧ op = opcodeByte i ∧ operands = operandBytes i ++ rest := by
  unfold decode at h
  split at h
  · cases h
  · refine ⟨_, _, rfl, ?_⟩
    split at h
    case h_1 | h_2 | h_3 | h_8 =>
      obtain ⟨x, rfl, rfl⟩ := decodeC1_eq_command h
      exact ⟨BitVec.eq_of_toNat_eq ‹_›, rfl⟩
    case h_4 | h_5 =>
      obtain ⟨tag, v, rfl, rfl⟩ := decodeTagged_eq_command h
      exact ⟨BitVec.eq_of_toNat_eq ‹_›, rfl⟩
    case h_6 =>
      obtain ⟨x, y, rfl, rfl⟩ := decodeC2_eq_command h
      exact ⟨BitVec.eq_of_toNat_eq ‹_›, rfl⟩
    case h_7 =>
      obtain ⟨buffer, rfl, rfl⟩ := decodeCW_eq_command h
      exact ⟨BitVec.eq_of_toNat_eq ‹_›, rfl⟩
    case h_9 =>
      obtain ⟨a, len, rfl, rfl⟩ := decodeCR_eq_command h
      exact ⟨BitVec.eq_of_toNat_eq ‹_›, rfl⟩
    case h_10 => cases h

/-- Settles O3: the encoder's opcode byte and operand bytes are the ones the command was read from. -/
theorem encodeOfDecode : Obligations.EncodeOfDecode := by
  intro bytes i rest h
  obtain ⟨op, operands, rfl, rfl, rfl⟩ := decode_eq_command h
  rfl

/-- Settles O1: each word is evaluated. -/
theorem specWordsDecode : Obligations.SpecWordsDecode := by
  refine ⟨?_, ?_, ?_, ?_, ?_, ?_, ?_⟩ <;> rfl

theorem decode_of_reservedOpcode {op : Byte}
    (h : op.toNat = 0x00 ∨ op.toNat = 0x06 ∨ op.toNat = 0x07 ∨ 0x0C ≤ op.toNat) (rest : List Byte) :
    decode (op :: rest) = .rejected (.reservedOpcode op) := by
  simp only [decode]
  split
  case h_10 => rfl
  all_goals omega

end Sys2Proof

namespace Sys2Proof.Machine

/-! ### What one step runs -/

theorem step_of_command {s : State} {i : Instr} {rest : List Byte} (h : decode s.host = .command i rest) :
    step s = exec i (s.timePasses.setHost rest) := by
  obtain ⟨op, operands, hhost, -⟩ := decode_eq_command h
  rw [hhost] at h
  simp only [step, State.fetch, timePasses_host, hhost, h]

theorem step_of_rejected {s : State} {op : Byte} {bytes : List Byte} {why : Reject} (hhost : s.host = op :: bytes)
    (h : decode (op :: bytes) = .rejected why) : step s = .refused (refusalOf why) := by
  simp only [step, State.fetch, timePasses_host, hhost, h]

theorem step_of_idle {s : State} (h : s.host = []) : step s = .next s.timePasses := by
  simp only [step, State.fetch, timePasses_host, h]

/-- Settles O7: a waiting command, and none. -/
theorem stepRunsDecodedCommand : Obligations.StepRunsDecodedCommand :=
  ⟨fun _ _ _ h => step_of_command h, fun _ h => step_of_idle h⟩

/-- Settles O4: the opcode byte is in no row of the opcode map. -/
theorem reservedOpcodesRefused : Obligations.ReservedOpcodesRefused :=
  fun _ _ rest hop hhost => step_of_rejected hhost (decode_of_reservedOpcode hop rest)

theorem code_toNat_lt (tag : HourTag) : tag.code.toNat < 3 := by
  cases tag <;> decide

/-- Settles O5: neither tagged format reads a reserved tag byte, and no tag has the reserved code. -/
theorem reservedTagsRefused : Obligations.ReservedTagsRefused := by
  refine ⟨fun s op t v rest hop ht hhost => ?_, fun s b => ⟨_, _, exec_hourDec b s, code_toNat_lt _⟩⟩
  have hnone := tagOfByte_eq_none ht
  rcases hop with rfl | rfl
  · exact step_of_rejected hhost (decodeTagged_of_reserved .hourEnc v rest hnone)
  · exact step_of_rejected hhost (decodeTagged_of_reserved .hourTo24 v rest hnone)

theorem not_lenOk_of_outside {n : Nat} (h : n = 0 ∨ Config.bufMax < n) : ¬ lenOk n = true := by
  rw [lenOk_iff]
  omega

/-- Settles O6: both bursts check their length before anything else. -/
theorem bufferLengthRefused : Obligations.BufferLengthRefused := by
  refine ⟨fun s bytes h => ?_, fun s a len h => if_neg (not_lenOk_of_outside h)⟩
  cases bytes with
  | nil => rfl
  | cons a data => exact if_neg (not_lenOk_of_outside h)

end Sys2Proof.Machine

/-! PROOFS. The timekeeper, the codecs and the state after reset (spec/20_memory.md section 8, spec/40_bcd_codec.md,
spec/41_hour_codec.md, spec/10_state.md section 7). -/

namespace Sys2Proof.Machine

/-! ### The timekeeper -/

/-- Any number of timekeeper steps changes the clock block alone. -/
theorem tickN_eq (n : Nat) (r : Regs) : r.tickN n = { r with clock := (r.tickN n).clock } := by
  have h1 := tickN_ctr1 n r
  have h2 := tickN_ctr2 n r
  have h3 := tickN_trim n r
  generalize r.tickN n = q at h1 h2 h3 ⊢
  rw [← h1, ← h2, ← h3]

theorem timePasses_reg_eq (s : State) : s.timePasses.reg = { s.reg with clock := s.timePasses.reg.clock } := by
  obtain ⟨n, hn⟩ := timePasses_reg s
  rw [hn]
  exact tickN_eq n s.reg

/-- Settles O8: the fields that time leaves, and the registers by a counted number of timekeeper steps. -/
theorem timekeeperChangesClockBlockOnly : Obligations.TimekeeperChangesClockBlockOnly := by
  intro s
  obtain ⟨n, hn⟩ := timePasses_reg s
  exact ⟨n, s.timePasses.reg.clock, hn, timePasses_reg_eq s, timePasses_buf s, timePasses_len s, timePasses_ap s,
    timePasses_host s, timePasses_resp s, timePasses_frames s, timePasses_answers s⟩

/-! ### The codecs -/

theorem exec_bcdDec (b : Byte) (s : State) : exec (.bcdDec b) s = .next { s with resp := .val (bcdDecode b) } := rfl

theorem exec_hourTo24 (tag : HourTag) (v : Byte) (s : State) :
    exec (.hourTo24 tag v) s = .next { s with resp := .val9 (hourTo24 tag v) } := rfl

theorem extractLsb_high (b : Byte) : (b.extractLsb 7 4).toNat = b.toNat / 16 := by
  have htens : b.toNat / 16 < 16 := Nat.div_lt_of_lt_mul b.isLt
  simp [BitVec.extractLsb_toNat, Nat.shiftRight_eq_div_pow, Nat.mod_eq_of_lt htens]

theorem extractLsb_low (b : Byte) : (b.extractLsb 3 0).toNat = b.toNat % 16 := by
  simp [BitVec.extractLsb_toNat]

theorem bcdValue_eq (b : Byte) : bcdValue b = b.toNat / 16 * 10 + b.toNat % 16 := by
  rw [bcdValue, extractLsb_high, extractLsb_low]

theorem bcdDecode_toNat_eq (b : Byte) : (bcdDecode b).toNat = b.toNat / 16 * 10 + b.toNat % 16 := by
  rw [bcdDecode_toNat, bcdValue_eq]

/-- From 160 up the tens digit no longer fits in its nibble. -/
theorem bcdDecode_bcdEncode_iff (v : Byte) : bcdDecode (bcdEncode v) = v ↔ v.toNat ≤ 159 := by
  refine ⟨fun h => ?_, bcdDecode_bcdEncode⟩
  have hv := congrArg BitVec.toNat h
  have hlt := v.isLt
  rw [bcdDecode_toNat_eq, bcdEncode_toNat] at hv
  omega

/-- A units nibble above 9 is carried into the tens. -/
theorem bcdEncode_bcdDecode_iff (b : Byte) : bcdEncode (bcdDecode b) = b ↔ b.toNat % 16 ≤ 9 := by
  have hlt := b.isLt
  rw [← BitVec.toNat_inj, bcdEncode_toNat, bcdDecode_toNat_eq]
  omega

/-- Settles O9: 15 tens and 15 units make 165. -/
theorem bcdDecResult : Obligations.BcdDecResult := by
  intro b s
  have hlt := b.isLt
  refine ⟨_, exec_bcdDec b s, bcdDecode_toNat b, ?_⟩
  rw [bcdDecode_toNat_eq]
  omega

/-- Settles O10: the encoder's two nibbles do not overlap. -/
theorem bcdEncResult : Obligations.BcdEncResult := by
  intro v s
  refine ⟨_, exec_bcdEnc v s, ?_, ?_⟩
  · rw [extractLsb_high, bcdEncode_toNat]
    omega
  · rw [extractLsb_low, bcdEncode_toNat]
    omega

/-- Settles O11: each round trip fails exactly where a digit does not fit in its nibble. -/
theorem bcdRoundTrip : Obligations.BcdRoundTrip := by
  refine ⟨fun v s => ⟨_, _, exec_bcdEnc v s, exec_bcdDec _ _, bcdDecode_bcdEncode_iff v⟩,
    fun b s => ⟨_, _, exec_bcdDec b s, exec_bcdEnc _ _, ?_⟩⟩
  rw [extractLsb_low]
  exact bcdEncode_bcdDecode_iff b

/-- Settles O14: no tag's number overflows 9 bits. -/
theorem hourTo24Result : Obligations.HourTo24Result := by
  intro v s
  exact ⟨_, _, _, exec_hourTo24 .h24 v s, hourTo24_toNat_of_ne_pm (by decide) v, exec_hourTo24 .am v s,
    hourTo24_toNat_of_ne_pm (by decide) v, exec_hourTo24 .pm v s, hourTo24_toNat_pm v⟩

/-- HOUR.DEC reads its tag from the mode bits. -/
theorem hourDecode_tag (b : Byte) : (b.getLsbD 7 = true ↔ (hourDecode b).1 = .h24) ∧
    ((hourDecode b).1 ≠ .h24 → (b.getLsbD 5 = true ↔ (hourDecode b).1 = .pm)) := by
  cases h7 : b.getLsbD 7 with
  | true => simp [hourDecode_of_mode h7]
  | false =>
    cases h5 : b.getLsbD 5 with
    | true => simp [hourDecode_of_pm h7 h5]
    | false => simp [hourDecode_of_am h7 h5]

theorem exec_hourEnc_byte {tag : HourTag} {v y : Byte} {s t : State} (h : exec (.hourEnc tag v) s = .next t)
    (hy : t.resp = .byte y) : hourInRange tag v = true ∧ y = hourEncode tag v := by
  by_cases hin : hourInRange tag v = true
  · rw [exec_hourEnc_of_inRange s hin] at h
    cases h
    cases hy
    exact ⟨hin, rfl⟩
  · rw [exec_hourEnc_of_outOfRange s hin] at h
    cases h
    cases hy

/-- Settles O16: HOUR.DEC gives the tag back, and reads it from the mode bits. -/
theorem hourImagesDisjoint : Obligations.HourImagesDisjoint := by
  intro tag v y s h
  obtain ⟨hin, rfl⟩ := exec_hourEnc_byte h rfl
  have htag := hourDecode_tag (hourEncode tag v)
  rwa [hourDecode_hourEncode hin] at htag

/-- A codec operation answers the host and does nothing else, whatever the state. -/
theorem exec_codec {i : Instr} (h : isCodec i = true) : ∃ r, ∀ s, exec i s = .next (s.respond r) := by
  cases i with
  | bcdDec b => exact ⟨_, fun s => exec_bcdDec b s⟩
  | bcdEnc v => exact ⟨_, fun s => exec_bcdEnc v s⟩
  | hourDec b => exact ⟨_, fun s => exec_hourDec b s⟩
  | hourEnc tag v =>
    by_cases hin : hourInRange tag v = true
    · exact ⟨_, fun s => exec_hourEnc_of_inRange s hin⟩
    · exact ⟨_, fun s => exec_hourEnc_of_outOfRange s hin⟩
  | hourTo24 tag v => exact ⟨_, fun s => exec_hourTo24 tag v s⟩
  | wrReg | wrBurst | rdReg | rdBurst => cases h

/-- Settles O17: a codec operation only responds. -/
theorem codecFrame : Obligations.CodecFrame := by
  intro i s h
  obtain ⟨r, hr⟩ := exec_codec h
  exact ⟨r, hr s⟩

/-! ### Reset -/

theorem reset_buf_length : State.reset.buf.length = Config.bufMax := by
  simp [State.reset]

/-- Settles O37, by the reset state's definition. -/
theorem resetState : Obligations.ResetState :=
  ⟨rfl, fun x => by cases x <;> rfl, reset_buf_length, rfl, rfl, rfl, rfl, rfl, rfl⟩

/-- Settles O38: BUF is made with BUF_MAX elements, and LEN is 0. -/
theorem resetHasInvariant : Obligations.ResetHasInvariant :=
  ⟨reset_buf_length, Nat.zero_le _⟩

end Sys2Proof.Machine

/-! PROOFS. The transfers: a write and a read by the transport's verdict, once for both lengths, and the statements on
one operation's result, frame and errors (spec/42_sequencer.md, spec/60_exceptions.md section 1). -/

namespace Sys2Proof.Machine

/-! ### The two kinds of transfer -/

/-- The operation writes `data` from address `a`. -/
inductive WritesData : Instr → Byte → List Byte → Prop
  | reg (a d : Byte) : WritesData (.wrReg a d) a [d]
  | burst (a : Byte) (data : List Byte) : WritesData (.wrBurst (a :: data)) a data

/-- The operation reads `n` data bytes from address `a` and forms its response by `answer`. -/
inductive ReadsData : Instr → Byte → Nat → (State → Response) → Prop
  | reg (a : Byte) : ReadsData (.rdReg a) a 1 fun t => .byte (t.bufAt 1)
  | burst (a : Byte) (n : Nat) : ReadsData (.rdBurst a (n + 1)) a n fun t => .buf (t.buf.take t.len)

/-- A well-formed transfer writes or reads, with a buffer of an accepted length. -/
theorem transfer_kind {i : Instr} (hc : isCodec i = false) (hwf : i.wf = true) :
    (∃ a data, WritesData i a data ∧ lenOk (data.length + 1) = true) ∨
    (∃ a n answer, ReadsData i a n answer ∧ lenOk (n + 1) = true) := by
  cases i with
  | bcdDec | bcdEnc | hourDec | hourEnc | hourTo24 => cases hc
  | wrReg a d => exact .inl ⟨a, [d], .reg a d, lenOk_two⟩
  | wrBurst bytes =>
    cases bytes with
    | nil => cases hwf
    | cons a data => exact .inl ⟨a, data, .burst a data, hwf⟩
  | rdReg a => exact .inr ⟨a, 1, _, .reg a, lenOk_two⟩
  | rdBurst a len =>
    cases len with
    | zero => cases hwf
    | succ n => exact .inr ⟨a, n, _, .burst a n, hwf⟩

/-- An operation that is not well-formed is refused in every state. -/
theorem exec_of_not_wf {i : Instr} (h : ¬ i.wf = true) : ∃ r, ∀ s, exec i s = .refused r := by
  cases i with
  | bcdDec | bcdEnc | hourDec | hourEnc | hourTo24 | wrReg | rdReg => exact absurd rfl h
  | wrBurst bytes =>
    cases bytes with
    | nil => exact ⟨_, fun _ => rfl⟩
    | cons a data => exact ⟨_, fun _ => if_neg h⟩
  | rdBurst a len => exact ⟨_, fun _ => if_neg h⟩

theorem WritesData.exec_eq {i : Instr} {a : Byte} {data : List Byte} (h : WritesData i a data)
    (hn : lenOk (data.length + 1) = true) (s : State) : exec i s = writeTransfer a data s := by
  cases h with
  | reg => rfl
  | burst => exact exec_wrBurst hn a s

theorem ReadsData.exec_eq {i : Instr} {a : Byte} {n : Nat} {answer : State → Response} (h : ReadsData i a n answer)
    (hn : lenOk (n + 1) = true) (s : State) : exec i s = readTransfer a n answer s := by
  cases h with
  | reg => rfl
  | burst => exact exec_rdBurst hn a s

/-! ### How a transfer ends -/

theorem asked_loadBuf (f : Frame) (bytes : List Byte) (s : State) :
    (s.loadBuf bytes).asked f = (s.asked f).loadBuf bytes := by
  cases h : s.answers <;> simp [State.asked, State.loadBuf, h]

/-- A carried write stores all its data bytes, in order, each through the gate. -/
theorem writeTransfer_ok {s : State} (h : s.verdict = some .ok) (a : Byte) (data : List Byte) :
    writeTransfer a data s = .next { s.asked (.w Config.devAddr (a :: data)) with
      buf := (a :: data) ++ s.buf.drop (data.length + 1), len := data.length + 1,
      ap := a + BitVec.ofNat 8 data.length, reg := writeRun a data s.reg, resp := .done } := by
  rw [writeTransfer_of_verdict h, endWrite_ok, asked_loadBuf]
  simp only [asked_reg, State.loadBuf, asked_buf, List.length_cons]

/-- A failed write stores its first data bytes, some or none or all. -/
theorem writeTransfer_err {s : State} {e : BusErr} (h : s.verdict = some (.err e)) (a : Byte) (data : List Byte) :
    ∃ k x m, k ≤ data.length ∧ writeTransfer a data s = .next { s.asked (.w Config.devAddr (a :: data)) with
      buf := (a :: data) ++ s.buf.drop (data.length + 1), len := data.length + 1, ap := x,
      reg := writeRun a (data.take k) s.reg, resp := .busError e, draws := m } := by
  obtain ⟨k, x, m, hk, hend⟩ :=
    endWrite_err a data e ((s.loadBuf (a :: data)).asked (.w Config.devAddr (a :: data)))
  refine ⟨k, x, m, hk, ?_⟩
  rw [writeTransfer_of_verdict h, hend, asked_loadBuf]
  simp only [asked_reg, State.loadBuf, asked_buf, List.length_cons]

/-- The data bytes a carried read of `n` registers from `a` gives. -/
def State.readData (a : Byte) (n : Nat) (s : State) : List Byte := ((s.setAp a).readBytes n).1

/-- The state in which a carried read forms its response. -/
def State.afterRead (a : Byte) (n : Nat) (s : State) : State :=
  { s with buf := (a :: s.readData a n) ++ s.buf.drop (n + 1), len := n + 1, ap := a + BitVec.ofNat 8 n,
           draws := ((s.setAp a).readBytes n).2.draws }

@[simp] theorem readData_length (a : Byte) (n : Nat) (s : State) : (s.readData a n).length = n :=
  (readBytes_spec n (s.setAp a)).1

/-- The bytes read are the stored ones at every mapped address. -/
theorem readData_exact {a : Byte} {n : Nat} {s : State} {j : Nat} (hj : j < n) {x : Byte}
    (hx : s.reg.read? (effectiveAddress a (j + 1)) = some x) : (s.readData a n)[j]? = some x := by
  obtain ⟨-, -, hexact⟩ := readBytes_spec n (s.setAp a)
  exact hexact j hj x hx

/-- The byte a carried read of one register gives. -/
def State.readByte (a : Byte) (s : State) : Byte := (s.readData a 1).getD 0 0

theorem readData_one (a : Byte) (s : State) : s.readData a 1 = [s.readByte a] := by
  obtain ⟨v, hv⟩ := List.length_eq_one_iff.1 (readData_length a 1 s)
  rw [State.readByte, hv]
  rfl

theorem readByte_exact {a : Byte} {s : State} {x : Byte} (hx : s.reg.read? a = some x) : s.readByte a = x := by
  have h : (s.readData a 1)[0]? = some x := readData_exact Nat.one_pos (by rwa [effectiveAddress_one])
  rw [readData_one] at h
  exact Option.some.inj h

theorem endRead_ok_eq (a : Byte) (n : Nat) (answer : State → Response) (s : State) :
    endRead a n answer .ok s = (s.afterRead a n).respond (answer (s.afterRead a n)) := by
  obtain ⟨hlen, ⟨m, hm⟩, -⟩ := readBytes_spec n (s.setAp a)
  have hload : ((s.setAp a).readBytes n).2.loadBuf (a :: s.readData a n) = s.afterRead a n := by
    rw [State.afterRead, hm, State.loadBuf, List.length_cons, readData_length]
    rfl
  rw [← hload]
  rfl

theorem afterRead_take (a : Byte) (n : Nat) (s : State) :
    (s.afterRead a n).buf.take (s.afterRead a n).len = a :: s.readData a n := by
  simp [State.afterRead]

theorem afterRead_bufAt_one (a : Byte) (s : State) : (s.afterRead a 1).bufAt 1 = s.readByte a := by
  simp [State.bufAt, State.afterRead, readData_one]

theorem readTransfer_of_verdict {s : State} {v : Verdict} (h : s.verdict = some v) (a : Byte) (n : Nat)
    (answer : State → Response) :
    readTransfer a n answer s = .next (endRead a n answer v (s.asked (.wr Config.devAddr a n))) :=
  transfer_of_verdict h _ _

/-- RD.REG, its frame carried. -/
theorem exec_rdReg_ok {s : State} (h : s.verdict = some .ok) (a : Byte) :
    exec (.rdReg a) s = .next (((s.asked (.wr Config.devAddr a 1)).afterRead a 1).respond
      (.byte ((s.asked (.wr Config.devAddr a 1)).readByte a))) := by
  change readTransfer a 1 _ s = _
  rw [readTransfer_of_verdict h, endRead_ok_eq, afterRead_bufAt_one]

/-- RD.BURST, its frame carried. -/
theorem exec_rdBurst_ok {s : State} {n : Nat} (hn : lenOk (n + 1) = true) (h : s.verdict = some .ok) (a : Byte) :
    exec (.rdBurst a (n + 1)) s = .next (((s.asked (.wr Config.devAddr a n)).afterRead a n).respond
      (.buf (a :: (s.asked (.wr Config.devAddr a n)).readData a n))) := by
  rw [exec_rdBurst hn, readTransfer_of_verdict h, endRead_ok_eq, afterRead_take]

/-- A failed read, whatever its response would have been. -/
theorem readTransfer_failed {s : State} {e : BusErr} (h : s.verdict = some (.err e)) (a : Byte) (n : Nat)
    (answer : State → Response) : ∃ vs x m, vs.length = n ∧
      readTransfer a n answer s = .next { s.asked (.wr Config.devAddr a n) with
        buf := (a :: vs) ++ s.buf.drop (n + 1), len := n + 1, ap := x, resp := .busError e, draws := m } := by
  obtain ⟨vs, x, m, hlen, hend⟩ := endRead_err a n answer e (s.asked (.wr Config.devAddr a n))
  exact ⟨vs, x, m, hlen, by rw [readTransfer_of_verdict h, hend, asked_buf]⟩

/-! ### The results -/

/-- Settles O18: the write transfer of one data byte. -/
theorem wrRegResult : Obligations.WrRegResult :=
  fun a d _ h => writeTransfer_ok h a [d]

/-- Settles O20: the write transfer, for a buffer of an accepted length. -/
theorem wrBurstResult : Obligations.WrBurstResult :=
  fun a data s hn h => (exec_wrBurst hn a s).trans (writeTransfer_ok h a data)

/-- Settles O21: the read transfer of one register. -/
theorem rdRegResult : Obligations.RdRegResult := by
  intro a s h
  refine ⟨(s.asked (.wr Config.devAddr a 1)).readByte a, ((s.asked (.wr Config.devAddr a 1)).afterRead a 1).draws,
    ?_, fun x hx => readByte_exact (by rwa [asked_reg])⟩
  rw [exec_rdReg_ok h, State.afterRead, readData_one, asked_buf]
  rfl

/-- Settles O22: the read transfer, for a buffer of an accepted length. -/
theorem rdBurstResult : Obligations.RdBurstResult := by
  intro a len s hn h
  obtain ⟨n, rfl⟩ : ∃ n, len = n + 1 := Nat.exists_eq_succ_of_ne_zero (by have := (lenOk_iff len).1 hn; omega)
  refine ⟨(s.asked (.wr Config.devAddr a n)).readData a n, ((s.asked (.wr Config.devAddr a n)).afterRead a n).draws,
    readData_length _ _ _, ?_, fun i h1 hi x hx => ?_⟩
  · rw [exec_rdBurst_ok hn h, State.afterRead, asked_buf]
    rfl
  · obtain ⟨j, rfl⟩ : ∃ j, i = j + 1 := Nat.exists_eq_succ_of_ne_zero (by omega)
    exact readData_exact (by omega) (by rwa [asked_reg])

/-- Settles O23: the failed write transfer; WR.REG is the burst of its one data byte. -/
theorem failedWriteStoresPrefix : Obligations.FailedWriteStoresPrefix := by
  intro a data s e hn h
  obtain ⟨k, x, m, hk, hrun⟩ := writeTransfer_err h a data
  refine ⟨k, x, m, hk, (exec_wrBurst hn a s).trans hrun, ?_⟩
  rintro d rfl
  exact (exec_wrBurst hn a s).symm

/-- Settles O24: the failed read transfer at both lengths. -/
theorem failedReadKeepsRegisters : Obligations.FailedReadKeepsRegisters := by
  intro a len s e hn h
  obtain ⟨n, rfl⟩ : ∃ n, len = n + 1 := Nat.exists_eq_succ_of_ne_zero (by have := (lenOk_iff len).1 hn; omega)
  constructor
  · obtain ⟨vs, x, m, hlen, hrun⟩ := readTransfer_failed h a n (fun t => .buf (t.buf.take t.len))
    exact ⟨vs, x, m, hlen, (exec_rdBurst hn a s).trans hrun⟩
  · obtain ⟨vs, x, m, hlen, hrun⟩ := readTransfer_failed h a 1 (fun t => .byte (t.bufAt 1))
    obtain ⟨v, rfl⟩ := List.length_eq_one_iff.1 hlen
    exact ⟨v, x, m, hrun⟩

end Sys2Proof.Machine

/-! PROOFS. Every operation: when it completes, what it leaves alone, which response it gives, and that neither the last
response nor BUF, LEN and AP are read (spec/42_sequencer.md Common rules, spec/60_exceptions.md section 1,
spec/10_state.md section 3). -/

namespace Sys2Proof.Machine

/-! ### Completion -/

theorem transfer_of_silent {s : State} (h : s.verdict = none) (f : Frame) (ending : Verdict → State → State) :
    s.transfer f ending = .fault .transportSilent := by
  simp only [State.transfer, h]

/-- Settles O25: a transfer waits for the answer to its frame. -/
theorem silentTransportStops : Obligations.SilentTransportStops := by
  intro i s hc hwf h
  rcases transfer_kind hc hwf with ⟨a, data, hw, hn⟩ | ⟨a, n, answer, hr, hn⟩
  · exact (hw.exec_eq hn s).trans (transfer_of_silent (s := s.loadBuf (a :: data)) h _ _)
  · exact (hr.exec_eq hn s).trans (transfer_of_silent h _ _)

/-- Settles O26: a codec operation waits for nothing, a transfer for the answer to its frame alone. -/
theorem everyOperationCompletes : Obligations.EveryOperationCompletes := by
  intro i s hwf h
  cases hc : isCodec i with
  | true =>
    obtain ⟨r, hr⟩ := exec_codec hc
    exact ⟨_, hr s⟩
  | false =>
    obtain ⟨v, hv⟩ := Option.ne_none_iff_exists'.1 (h.resolve_left (by simp [hc]))
    rcases transfer_kind hc hwf with ⟨a, data, hw, hn⟩ | ⟨a, n, answer, hr, hn⟩
    · exact ⟨_, (hw.exec_eq hn s).trans (writeTransfer_of_verdict hv a data)⟩
    · exact ⟨_, (hr.exec_eq hn s).trans (readTransfer_of_verdict hv a n answer)⟩

/-! ### What a transfer that completes did -/

/-- The buffer a transfer uses: its own for a write, an address and the bytes read for a read. -/
def UsesBuffer : Instr → List Byte → Prop
  | .wrReg a d, bytes => bytes = [a, d]
  | .wrBurst buffer, bytes => bytes = buffer
  | .rdReg a, bytes => ∃ v, bytes = [a, v]
  | .rdBurst a len, bytes => bytes.length = len ∧ bytes[0]? = some a
  | .bcdDec _, _ | .bcdEnc _, _ | .hourDec _, _ | .hourEnc _ _, _ | .hourTo24 _ _, _ => False

/-- The response reports the transport's verdict. -/
def Response.reports (r : Response) : Verdict → Prop
  | .ok => r.st = .ok
  | .err e => r = .busError e

/-- The transfer `i` took `s` to `t` on verdict `v`, with `bytes` as its buffer, and stored the data bytes `stored`
from address `a`. -/
structure Transferred (i : Instr) (s t : State) (v : Verdict) (bytes : List Byte) (a : Byte) (stored : List Byte) :
    Prop where
  verdict : s.verdict = some v
  resp : t.resp.reports v
  frames : t.frames = s.frames ++ framesOf i
  answers : t.answers = s.answers.tail
  buffer : UsesBuffer i bytes
  lenOk : lenOk bytes.length = true
  buf : t.buf = bytes ++ s.buf.drop bytes.length
  len : t.len = bytes.length
  reg : t.reg = writeRun a stored s.reg
  stored_lt : stored.length < bytes.length
  addresses : ∀ j < stored.length, effectiveAddress a (j + 1) ∈ writtenAddresses i
  host : t.host = s.host
  ticks : t.ticks = s.ticks

theorem WritesData.framesOf {i : Instr} {a : Byte} {data : List Byte} (h : WritesData i a data) :
    framesOf i = [.w Config.devAddr (a :: data)] := by
  cases h <;> rfl

theorem WritesData.usesBuffer {i : Instr} {a : Byte} {data : List Byte} (h : WritesData i a data) :
    UsesBuffer i (a :: data) := by
  cases h <;> rfl

theorem WritesData.mem_writtenAddresses {i : Instr} {a : Byte} {data : List Byte} (h : WritesData i a data) {j : Nat}
    (hj : j < data.length) : effectiveAddress a (j + 1) ∈ writtenAddresses i := by
  cases h with
  | reg =>
    obtain rfl : j = 0 := by simpa using hj
    exact List.mem_singleton.2 rfl
  | burst => exact List.mem_map.2 ⟨j, List.mem_range.2 hj, rfl⟩

theorem ReadsData.framesOf {i : Instr} {a : Byte} {n : Nat} {answer : State → Response} (h : ReadsData i a n answer) :
    framesOf i = [.wr Config.devAddr a n] := by
  cases h <;> rfl

theorem ReadsData.usesBuffer {i : Instr} {a : Byte} {n : Nat} {answer : State → Response} (h : ReadsData i a n answer)
    {vs : List Byte} (hvs : vs.length = n) : UsesBuffer i (a :: vs) := by
  cases h with
  | reg =>
    obtain ⟨v, rfl⟩ := List.length_eq_one_iff.1 hvs
    exact ⟨v, rfl⟩
  | burst => exact ⟨congrArg (· + 1) hvs, rfl⟩

theorem ReadsData.answer_st {i : Instr} {a : Byte} {n : Nat} {answer : State → Response} (h : ReadsData i a n answer)
    (t : State) : (answer t).st = .ok := by
  cases h <;> rfl

theorem wf_of_exec_next {i : Instr} {s t : State} (h : exec i s = .next t) : i.wf = true := by
  by_contra hwf
  obtain ⟨r, hr⟩ := exec_of_not_wf hwf
  rw [hr s] at h
  cases h

theorem verdict_of_exec_next {i : Instr} {s t : State} (hc : isCodec i = false) (h : exec i s = .next t) :
    ∃ v, s.verdict = some v := by
  cases hv : s.verdict with
  | none =>
    rw [silentTransportStops i s hc (wf_of_exec_next h) hv] at h
    cases h
  | some v => exact ⟨v, rfl⟩

/-- The state that a transfer leaves is the state after the question to the transport, with the transfer's own
changes. -/
theorem transferred_of_asked {i : Instr} {s : State} {v : Verdict} {f : Frame} {bytes : List Byte} {a : Byte}
    {stored : List Byte} {x : Byte} {q : Regs} {r : Response} {m : Nat} (hv : s.verdict = some v) (hr : r.reports v)
    (hf : framesOf i = [f]) (hbuffer : UsesBuffer i bytes) (hn : lenOk bytes.length = true)
    (hq : q = writeRun a stored s.reg) (hlt : stored.length < bytes.length)
    (haddr : ∀ j < stored.length, effectiveAddress a (j + 1) ∈ writtenAddresses i) :
    Transferred i s { s.asked f with buf := bytes ++ s.buf.drop bytes.length, len := bytes.length, ap := x, reg := q,
                                     resp := r, draws := m } v bytes a stored where
  verdict := hv
  resp := hr
  frames := hf ▸ asked_frames s f
  answers := asked_answers s f
  buffer := hbuffer
  lenOk := hn
  buf := rfl
  len := rfl
  reg := hq
  stored_lt := hlt
  addresses := haddr
  host := asked_host s f
  ticks := asked_ticks s f

theorem WritesData.transferred {i : Instr} {a : Byte} {data : List Byte} (hw : WritesData i a data)
    (hn : lenOk (data.length + 1) = true) {s t : State} {v : Verdict} (hv : s.verdict = some v)
    (h : writeTransfer a data s = .next t) : ∃ stored, Transferred i s t v (a :: data) a stored := by
  cases v with
  | ok =>
    rw [writeTransfer_ok hv] at h
    cases h
    exact ⟨data, transferred_of_asked hv rfl hw.framesOf hw.usesBuffer hn rfl (Nat.lt_succ_self _)
      fun j => hw.mem_writtenAddresses⟩
  | err e =>
    obtain ⟨k, x, m, -, hrun⟩ := writeTransfer_err hv a data
    rw [hrun] at h
    cases h
    have hprefix := List.length_take_le' k data
    exact ⟨data.take k, transferred_of_asked hv rfl hw.framesOf hw.usesBuffer hn rfl (Nat.lt_succ_of_le hprefix)
      fun j hj => hw.mem_writtenAddresses (hj.trans_le hprefix)⟩

theorem ReadsData.transferred {i : Instr} {a : Byte} {n : Nat} {answer : State → Response}
    (hr : ReadsData i a n answer) (hn : lenOk (n + 1) = true) {s t : State} {v : Verdict} (hv : s.verdict = some v)
    (h : readTransfer a n answer s = .next t) : ∃ vs, Transferred i s t v (a :: vs) a [] := by
  have hnone : ∀ j < ([] : List Byte).length, effectiveAddress a (j + 1) ∈ writtenAddresses i := nofun
  cases v with
  | ok =>
    rw [readTransfer_of_verdict hv, endRead_ok_eq, State.afterRead, asked_buf] at h
    cases h
    have hlen := readData_length a n (s.asked (.wr Config.devAddr a n))
    generalize State.readData a n _ = vs at hlen ⊢
    subst hlen
    exact ⟨vs, transferred_of_asked hv (hr.answer_st _) hr.framesOf (hr.usesBuffer rfl) hn (asked_reg s _)
      (Nat.succ_pos _) hnone⟩
  | err e =>
    obtain ⟨vs, x, m, rfl, hrun⟩ := readTransfer_failed hv a n answer
    rw [hrun] at h
    cases h
    exact ⟨vs, transferred_of_asked hv rfl hr.framesOf (hr.usesBuffer rfl) hn (asked_reg s _) (Nat.succ_pos _) hnone⟩

/-- Everything a transfer that completes did, by its kind and the transport's verdict. -/
theorem transferred_of_exec_next {i : Instr} {s t : State} (hc : isCodec i = false) (h : exec i s = .next t) :
    ∃ v bytes a stored, Transferred i s t v bytes a stored := by
  obtain ⟨v, hv⟩ := verdict_of_exec_next hc h
  rcases transfer_kind hc (wf_of_exec_next h) with ⟨a, data, hw, hn⟩ | ⟨a, n, answer, hr, hn⟩
  · obtain ⟨stored, ht⟩ := hw.transferred hn hv ((hw.exec_eq hn s).symm.trans h)
    exact ⟨v, _, _, stored, ht⟩
  · obtain ⟨vs, ht⟩ := hr.transferred hn hv ((hr.exec_eq hn s).symm.trans h)
    exact ⟨v, _, _, [], ht⟩

theorem codec_of_exec_next {i : Instr} {s t : State} (hc : isCodec i = true) (h : exec i s = .next t) :
    ∃ r, t = s.respond r := by
  obtain ⟨r, hr⟩ := exec_codec hc
  rw [hr s] at h
  cases h
  exact ⟨r, rfl⟩

/-- Every operation changes the registers by a run of stored bytes, short enough not to go round the register space,
at the addresses it writes to. -/
theorem exec_reg_eq_writeRun {i : Instr} {s t : State} (h : exec i s = .next t) :
    ∃ a stored, stored.length ≤ 254 ∧ (∀ j < stored.length, effectiveAddress a (j + 1) ∈ writtenAddresses i) ∧
      t.reg = writeRun a stored s.reg := by
  cases hc : isCodec i with
  | true =>
    obtain ⟨r, rfl⟩ := codec_of_exec_next hc h
    exact ⟨0, [], Nat.zero_le _, fun j hj => absurd hj (Nat.not_lt_zero j), rfl⟩
  | false =>
    obtain ⟨v, bytes, a, stored, ht⟩ := transferred_of_exec_next hc h
    obtain ⟨-, -, hbyte⟩ := (lenOk_iff _).1 ht.lenOk
    have hlt := ht.stored_lt
    exact ⟨a, stored, by omega, ht.addresses, ht.reg⟩

/-! ### The frame of an operation -/

theorem framesOf_of_codec {i : Instr} (h : isCodec i = true) : framesOf i = [] := by
  cases i with
  | bcdDec | bcdEnc | hourDec | hourEnc | hourTo24 => rfl
  | wrReg | wrBurst | rdReg | rdBurst => cases h

/-- Settles O27: a codec operation only responds, and a transfer asks the transport once. -/
theorem oneFramePerTransfer : Obligations.OneFramePerTransfer := by
  intro i s t h
  cases hc : isCodec i with
  | true =>
    obtain ⟨r, rfl⟩ := codec_of_exec_next hc h
    exact ⟨by simp [framesOf_of_codec hc], rfl⟩
  | false =>
    obtain ⟨v, bytes, a, stored, ht⟩ := transferred_of_exec_next hc h
    exact ⟨ht.frames, ht.answers⟩

theorem exec_read?_of_notMem {i : Instr} {s t : State} (h : exec i s = .next t) {x : Byte}
    (hx : x ∉ writtenAddresses i) : t.reg.read? x = s.reg.read? x := by
  obtain ⟨a, stored, -, haddr, hreg⟩ := exec_reg_eq_writeRun h
  rw [hreg]
  refine writeRun_read?_other a stored s.reg fun j hj => ?_
  rintro rfl
  exact hx (haddr j hj)

/-- Settles O28: the registers by the written addresses, BUF past the transfer's own elements. -/
theorem operationFrame : Obligations.OperationFrame := by
  intro i s t h
  refine ⟨fun x hx => exec_read?_of_notMem h hx, ?_⟩
  cases hc : isCodec i with
  | true =>
    obtain ⟨r, rfl⟩ := codec_of_exec_next hc h
    exact ⟨fun hf => absurd hf (by decide), fun _ => ⟨rfl, rfl, rfl⟩, rfl, rfl⟩
  | false =>
    obtain ⟨v, bytes, a, stored, ht⟩ := transferred_of_exec_next hc h
    refine ⟨fun _ => ?_, fun hf => absurd hf (by decide), ht.host, ht.ticks⟩
    rw [ht.buf, ht.len, List.drop_left]

/-- Settles O29: each transfer's buffer stands at the front of BUF, and LEN is its length. -/
theorem transferSetsLength : Obligations.TransferSetsLength := by
  intro i s t hc h
  obtain ⟨v, bytes, a, stored, ht⟩ := transferred_of_exec_next hc h
  obtain ⟨hlow, hhigh, -⟩ := (lenOk_iff _).1 ht.lenOk
  have hbuffer := ht.buffer
  have hfirst : t.buf[0]? = bytes[0]? := by rw [ht.buf, List.getElem?_append_left (by omega)]
  rw [ht.len]
  refine ⟨hlow, hhigh, ?_, ?_, ?_, ?_⟩
  · rintro a d rfl
    obtain rfl : bytes = [a, d] := hbuffer
    exact ⟨rfl, hfirst, by rw [ht.buf]; rfl⟩
  · rintro buffer rfl
    obtain rfl : bytes = buffer := hbuffer
    exact ⟨rfl, by rw [ht.buf, List.take_left]⟩
  · rintro a rfl
    obtain ⟨v, rfl⟩ : ∃ v, bytes = [a, v] := hbuffer
    exact ⟨rfl, hfirst⟩
  · rintro a len rfl
    obtain ⟨hlen, ha⟩ : bytes.length = len ∧ bytes[0]? = some a := hbuffer
    exact ⟨hlen, hfirst.trans ha⟩

/-! ### The invariant -/

theorem State.Inv.timePasses {s : State} (h : s.Inv) : s.timePasses.Inv := by
  rwa [State.Inv, timePasses_buf, timePasses_len]

/-- A transfer's buffer takes the place of as many elements of BUF. -/
theorem exec_keeps_inv {i : Instr} {s t : State} (hs : s.Inv) (h : exec i s = .next t) : t.Inv := by
  cases hc : isCodec i with
  | true =>
    obtain ⟨r, rfl⟩ := codec_of_exec_next hc h
    exact hs
  | false =>
    obtain ⟨v, bytes, a, stored, ht⟩ := transferred_of_exec_next hc h
    obtain ⟨hbuf, -⟩ := hs
    obtain ⟨-, hmax, -⟩ := (lenOk_iff _).1 ht.lenOk
    refine ⟨?_, by rw [ht.len]; exact hmax⟩
    rw [ht.buf, List.length_append, List.length_drop, hbuf]
    omega

/-- Settles O39: time leaves BUF and LEN alone, and every operation keeps the invariant. -/
theorem stepKeepsInvariant : Obligations.StepKeepsInvariant := by
  intro s t hs h
  rcases step_next_cases h with ⟨-, rfl⟩ | ⟨i, rest, -, hexec⟩
  · exact hs.timePasses
  · exact exec_keeps_inv (s := s.timePasses.setHost rest) hs.timePasses hexec

/-! ### Errors -/

theorem not_hourInRange_iff {tag : HourTag} {v : Byte} : ¬ hourInRange tag v = true ↔
    (tag = .h24 ∧ 23 < v.toNat) ∨ (tag ≠ .h24 ∧ (v.toNat < 1 ∨ 12 < v.toNat)) := by
  by_cases htag : tag = .h24
  · subst htag
    simp [hourInRange_h24]
  · simp only [hourInRange_twelve htag, htag, false_and, false_or, not_false_eq_true, true_and, ne_eq]
    omega

/-- Apart from HOUR.ENC out of range, a codec operation's status is OK. -/
theorem codec_st_of_exec_next {i : Instr} {s t : State} (hc : isCodec i = true) (h : exec i s = .next t) :
    (∃ tag v, i = .hourEnc tag v ∧ ¬ hourInRange tag v = true ∧ t.resp = .invalidInputData) ∨
    ((∀ tag v, i = .hourEnc tag v → hourInRange tag v = true) ∧ t.resp.st = .ok) := by
  cases i with
  | bcdDec | bcdEnc | hourDec | hourTo24 =>
    cases h
    exact .inr ⟨nofun, rfl⟩
  | hourEnc tag v =>
    by_cases hin : hourInRange tag v = true
    · rw [exec_hourEnc_of_inRange s hin] at h
      cases h
      refine .inr ⟨?_, rfl⟩
      rintro _ _ ⟨⟩
      exact hin
    · rw [exec_hourEnc_of_outOfRange s hin] at h
      cases h
      exact .inl ⟨tag, v, rfl, hin, rfl⟩
  | wrReg | wrBurst | rdReg | rdBurst => cases hc

/-- Settles O34: a codec operation fails by HOUR.ENC's range alone, a transfer by the transport's verdict alone. -/
theorem completeCausesOfErrors : Obligations.CompleteCausesOfErrors := by
  intro i s t h
  cases hc : isCodec i with
  | true =>
    rcases codec_st_of_exec_next hc h with ⟨tag, v, rfl, hin, hresp⟩ | ⟨hin, hst⟩
    · rw [hresp]
      refine ⟨⟨fun _ => ⟨tag, v, rfl, not_hourInRange_iff.1 hin⟩, fun _ => rfl⟩, ?_, ?_, ?_⟩ <;> simp [Response.st]
    · refine ⟨?_, ?_, by simp [hst], by simp [hst]⟩
      · rw [hst]
        refine ⟨nofun, ?_⟩
        rintro ⟨tag, v, hi, hout⟩
        exact absurd (hin tag v hi) (not_hourInRange_iff.2 hout)
      · intro e
        refine ⟨fun hresp => ?_, by simp⟩
        rw [hresp] at hst
        cases hst
  | false =>
    obtain ⟨v, bytes, a, stored, ht⟩ := transferred_of_exec_next hc h
    have hnot : ¬ ∃ tag v, i = .hourEnc tag v ∧ ((tag = .h24 ∧ 23 < v.toNat) ∨
        (tag ≠ .h24 ∧ (v.toNat < 1 ∨ 12 < v.toNat))) := by
      rintro ⟨tag, v, rfl, -⟩
      cases hc
    rw [ht.verdict]
    have hresp := ht.resp
    cases v with
    | ok =>
      have hst : t.resp.st = .ok := hresp
      refine ⟨iff_of_false (by simp [hst]) hnot, fun e => ⟨fun hbus => ?_, by simp⟩, by simp [hst], by simp [hst]⟩
      rw [hbus] at hst
      cases hst
    | err e =>
      have hbus : t.resp = .busError e := hresp
      rw [hbus]
      refine ⟨iff_of_false nofun hnot, fun e' => by simp, by simp [Response.st], nofun⟩

/-! ### A single register and a burst of two elements -/

theorem readTransfer_fault_iff (a : Byte) (n : Nat) (answer : State → Response) (s : State) :
    readTransfer a n answer s = .fault .transportSilent ↔ s.verdict = none := by
  refine ⟨fun h => ?_, fun h => transfer_of_silent h _ _⟩
  by_contra hv
  obtain ⟨v, hv⟩ := Option.ne_none_iff_exists'.1 hv
  rw [readTransfer_of_verdict hv] at h
  cases h

/-- A failed read does not form its response. -/
theorem readTransfer_err_congr {s : State} {e : BusErr} (h : s.verdict = some (.err e)) (a : Byte) (n : Nat)
    (answer answer' : State → Response) : readTransfer a n answer s = readTransfer a n answer' s := by
  rw [readTransfer_of_verdict h, readTransfer_of_verdict h]
  rfl

/-- Settles O30: the same transfer of one data byte; the two reads form their responses from the same buffer. -/
theorem singleEqualsBurstOfTwo : Obligations.SingleEqualsBurstOfTwo := by
  refine ⟨fun a d s => (exec_wrBurst (data := [d]) lenOk_two a s).symm, fun a s t h => ?_, fun a s => ?_⟩
  · obtain ⟨v, hv⟩ := verdict_of_exec_next rfl h
    cases v with
    | ok =>
      rw [exec_rdReg_ok hv] at h
      cases h
      refine ⟨_, exec_rdBurst_ok lenOk_two hv a, ?_, nofun⟩
      rintro v ⟨⟩
      rw [readData_one]
    | err e =>
      have hburst : exec (.rdBurst a 2) s = .next t :=
        (exec_rdBurst lenOk_two a s).trans ((readTransfer_err_congr hv a 1 _ _).trans h)
      obtain ⟨vs, x, m, -, hrun⟩ := readTransfer_failed hv a 1 (fun t => .byte (t.bufAt 1))
      have hresp : t.resp = .busError e := by
        cases hrun.symm.trans h
        rfl
      refine ⟨t.resp, hburst, ?_, fun e' he' => he'⟩
      rw [hresp]
      nofun
  · rw [exec_rdBurst lenOk_two]
    exact (readTransfer_fault_iff a 1 _ s).trans (readTransfer_fault_iff a 1 _ s).symm

end Sys2Proof.Machine

/-! PROOFS. What no operation reads: the last response, and BUF, LEN and AP before they are written (spec/10_state.md
sections 3 and 6). -/

namespace Sys2Proof.Machine

/-! ### The reads of a transfer -/

/-- The bytes a read gives depend on the registers and the counter of free values alone. -/
theorem readData_congr (a : Byte) (n : Nat) {s t : State} (hreg : s.reg = t.reg) (hdraws : s.draws = t.draws) :
    s.readData a n = t.readData a n ∧ ((s.setAp a).readBytes n).2.draws = ((t.setAp a).readBytes n).2.draws :=
  readBytes_congr n hreg rfl hdraws

/-- A response formed from the buffer shows the bytes read and nothing else of the state. -/
theorem ReadsData.answer_congr {i : Instr} {a : Byte} {n : Nat} {answer : State → Response}
    (h : ReadsData i a n answer) {s t : State} (hdata : s.readData a n = t.readData a n) :
    answer (s.afterRead a n) = answer (t.afterRead a n) := by
  cases h with
  | reg => simp only [afterRead_bufAt_one, State.readByte, hdata]
  | burst => simp only [afterRead_take, hdata]

/-- Free bytes depend on the counter of free values alone. -/
theorem drawBytes_congr (n : Nat) {s t : State} (h : s.draws = t.draws) : (s.drawBytes n).1 = (t.drawBytes n).1 := by
  induction n generalizing s t with
  | zero => rfl
  | succ n ih =>
    have hhead : s.drawByte.1 = t.drawByte.1 := congrArg Config.freeByte h
    have htail := ih (s := s.drawByte.2) (t := t.drawByte.2) (congrArg (· + 1) h)
    rw [State.drawBytes, State.drawBytes, hhead, htail]

/-! ### The last response -/

theorem respond_asked (f : Frame) (r : Response) (s : State) : (s.respond r).asked f = (s.asked f).respond r := by
  cases h : s.answers <;> simp [State.asked, State.respond, h]

theorem endWrite_respond (a : Byte) (data : List Byte) (v : Verdict) (r : Response) (s : State) :
    endWrite a data v (s.respond r) = endWrite a data v s := by
  cases v with
  | ok => rw [endWrite_ok, endWrite_ok]; rfl
  | err e => simp only [endWrite, partialWrite_eq]; rfl

theorem ReadsData.endRead_respond {i : Instr} {a : Byte} {n : Nat} {answer : State → Response}
    (h : ReadsData i a n answer) (v : Verdict) (r : Response) (s : State) :
    endRead a n answer v (s.respond r) = endRead a n answer v s := by
  cases v with
  | ok =>
    obtain ⟨hdata, hdraws⟩ := readData_congr a n (s := s.respond r) (t := s) rfl rfl
    rw [endRead_ok_eq, endRead_ok_eq, h.answer_congr hdata, State.afterRead, State.afterRead, hdata, hdraws]
    rfl
  | err e =>
    obtain ⟨-, hst⟩ := drawBytes_eq n (s.respond r)
    obtain ⟨-, hst'⟩ := drawBytes_eq n s
    simp only [endRead, hst, hst', drawBytes_congr n (respond_draws s r)]
    rfl

/-- Settles O35: every ending of an operation writes the response over. -/
theorem responseNeverRead : Obligations.ResponseNeverRead := by
  intro i s r
  change exec i (s.respond r) = exec i s
  by_cases hwf : i.wf = true
  · cases hc : isCodec i with
    | true =>
      obtain ⟨r', hr⟩ := exec_codec hc
      rw [hr, hr]
      rfl
    | false =>
      cases hv : s.verdict with
      | none =>
        rw [silentTransportStops i s hc hwf hv, silentTransportStops i (s.respond r) hc hwf hv]
      | some v =>
        have hv' : (s.respond r).verdict = some v := hv
        rcases transfer_kind hc hwf with ⟨a, data, hw, hn⟩ | ⟨a, n, answer, hr, hn⟩
        · have hload : (s.respond r).loadBuf (a :: data) = (s.loadBuf (a :: data)).respond r := rfl
          rw [hw.exec_eq hn, hw.exec_eq hn, writeTransfer_of_verdict hv, writeTransfer_of_verdict hv', hload,
            respond_asked, endWrite_respond]
        · rw [hr.exec_eq hn, hr.exec_eq hn, readTransfer_of_verdict hv, readTransfer_of_verdict hv', respond_asked,
            hr.endRead_respond]
  · obtain ⟨refusal, hrefused⟩ := exec_of_not_wf hwf
    rw [hrefused, hrefused]

/-! ### BUF, LEN and AP

`SameButBuffer` is kept by every part of a step, and the response, which is formed from BUF, shows only what the
transfer has just written there. -/

theorem sameButBuffer_iff {s t : State} : SameButBuffer s t ↔ s.reg = t.reg ∧ s.host = t.host ∧ s.resp = t.resp ∧
    s.frames = t.frames ∧ s.answers = t.answers ∧ s.ticks = t.ticks ∧ s.draws = t.draws := by
  cases s
  cases t
  simp [SameButBuffer]

/-- A state that differs from `s` in BUF, LEN and AP alone. -/
def State.withBuffer (buf : List Byte) (len : Nat) (ap : Byte) (s : State) : State :=
  { s with buf := buf, len := len, ap := ap }

section
variable {s t : State}

theorem SameButBuffer.eq_withBuffer (h : SameButBuffer s t) : t = s.withBuffer t.buf t.len t.ap :=
  Eq.symm h

theorem SameButBuffer.verdict (h : SameButBuffer s t) : s.verdict = t.verdict := by
  rw [h.eq_withBuffer]
  rfl

theorem SameButBuffer.respond (h : SameButBuffer s t) (r : Response) :
    SameButBuffer (s.respond r) (t.respond r) := by
  rw [h.eq_withBuffer]
  rfl

theorem SameButBuffer.setHost (h : SameButBuffer s t) (bytes : List Byte) :
    SameButBuffer (s.setHost bytes) (t.setHost bytes) := by
  rw [h.eq_withBuffer]
  rfl

theorem SameButBuffer.loadBuf (h : SameButBuffer s t) (bytes : List Byte) :
    SameButBuffer (s.loadBuf bytes) (t.loadBuf bytes) := by
  rw [h.eq_withBuffer]
  rfl

theorem SameButBuffer.asked (h : SameButBuffer s t) (f : Frame) :
    SameButBuffer (s.asked f) (t.asked f) := by
  rw [h.eq_withBuffer]
  cases ha : s.answers <;> simp [State.asked, State.withBuffer, ha, SameButBuffer]

theorem SameButBuffer.timePasses (h : SameButBuffer s t) :
    SameButBuffer s.timePasses t.timePasses := by
  rw [h.eq_withBuffer]
  cases ht : s.ticks <;> simp [State.timePasses, State.withBuffer, ht, SameButBuffer]

theorem SameButBuffer.endWrite (h : SameButBuffer s t) (a : Byte) (data : List Byte) (v : Verdict) :
    SameButBuffer (endWrite a data v s) (endWrite a data v t) := by
  rw [h.eq_withBuffer]
  cases v with
  | ok => rw [endWrite_ok, endWrite_ok]; rfl
  | err e => simp only [Machine.endWrite, partialWrite_eq]; rfl

theorem SameButBuffer.endRead (h : SameButBuffer s t) {i : Instr} {a : Byte} {n : Nat}
    {answer : State → Response} (hr : ReadsData i a n answer) (v : Verdict) :
    SameButBuffer (endRead a n answer v s) (endRead a n answer v t) := by
  rw [h.eq_withBuffer]
  cases v with
  | ok =>
    obtain ⟨hdata, hdraws⟩ := readData_congr a n (s := s) (t := s.withBuffer t.buf t.len t.ap) rfl rfl
    rw [endRead_ok_eq, endRead_ok_eq, hr.answer_congr hdata, State.afterRead, State.afterRead, hdraws]
    rfl
  | err e =>
    obtain ⟨-, hst⟩ := drawBytes_eq n s
    obtain ⟨-, hst'⟩ := drawBytes_eq n (s.withBuffer t.buf t.len t.ap)
    simp only [Machine.endRead, hst, hst']
    rfl

/-- Two states that differ in BUF, LEN and AP run an operation to outcomes that differ there too at most. -/
theorem SameButBuffer.exec (h : SameButBuffer s t) (i : Instr) :
    AgreeButBuffer (exec i s) (exec i t) := by
  by_cases hwf : i.wf = true
  · cases hc : isCodec i with
    | true =>
      obtain ⟨r, hr⟩ := exec_codec hc
      rw [hr, hr]
      exact h.respond r
    | false =>
      cases hv : s.verdict with
      | none =>
        rw [silentTransportStops i s hc hwf hv, silentTransportStops i t hc hwf (h.verdict ▸ hv)]
        rfl
      | some v =>
        have hv' : t.verdict = some v := h.verdict ▸ hv
        rcases transfer_kind hc hwf with ⟨a, data, hw, hn⟩ | ⟨a, n, answer, hr, hn⟩
        · rw [hw.exec_eq hn, hw.exec_eq hn, writeTransfer_of_verdict hv, writeTransfer_of_verdict hv']
          exact ((h.loadBuf _).asked _).endWrite a data v
        · rw [hr.exec_eq hn, hr.exec_eq hn, readTransfer_of_verdict hv, readTransfer_of_verdict hv']
          exact (h.asked _).endRead hr v
  · obtain ⟨r, hr⟩ := exec_of_not_wf hwf
    rw [hr, hr]
    rfl

theorem SameButBuffer.step (h : SameButBuffer s t) : AgreeButBuffer (step s) (step t) := by
  obtain ⟨-, hhost, -⟩ := sameButBuffer_iff.1 h
  cases hs : s.host with
  | nil =>
    rw [step_of_idle hs, step_of_idle (hhost ▸ hs)]
    exact h.timePasses
  | cons op bytes =>
    cases hd : decode (op :: bytes) with
    | command i rest =>
      rw [step_of_command (s := s) (by rw [hs, hd]), step_of_command (s := t) (by rw [← hhost, hs, hd])]
      exact (h.timePasses.setHost rest).exec i
    | rejected why =>
      rw [step_of_rejected hs hd, step_of_rejected (hhost ▸ hs) hd]
      rfl

end

theorem agreeButBuffer_cases {o p : Host.Outcome State Fault Refusal} (h : AgreeButBuffer o p) :
    (∃ t u, o = .next t ∧ p = .next u ∧ SameButBuffer t u) ∨ (∃ f, o = .fault f ∧ p = .fault f) ∨
    ∃ r, o = .refused r ∧ p = .refused r := by
  cases o <;> cases p
  case next.next t u => exact .inl ⟨t, u, rfl, rfl, h⟩
  case fault.fault f g =>
    obtain rfl : f = g := h
    exact .inr (.inl ⟨f, rfl, rfl⟩)
  case refused.refused q r =>
    obtain rfl : q = r := h
    exact .inr (.inr ⟨q, rfl, rfl⟩)
  all_goals exact False.elim h

theorem run_succ_of_next {s t : State} (h : step s = .next t) (k : Nat) : core.run (k + 1) s = core.run k t := by
  simp only [Host.Core.run, show core.step s = .next t from h]

theorem run_succ_of_fault {s : State} {f : Fault} (h : step s = .fault f) (k : Nat) :
    core.run (k + 1) s = .fault f := by
  simp only [Host.Core.run, show core.step s = .fault f from h]

theorem run_succ_of_refused {s : State} {r : Refusal} (h : step s = .refused r) (k : Nat) :
    core.run (k + 1) s = .refused r := by
  simp only [Host.Core.run, show core.step s = .refused r from h]

theorem SameButBuffer.run {s t : State} (h : SameButBuffer s t) (k : Nat) :
    AgreeButBuffer (core.run k s) (core.run k t) := by
  induction k generalizing s t with
  | zero => exact h
  | succ k ih =>
    rcases agreeButBuffer_cases h.step with ⟨s', t', hs, ht, h'⟩ | ⟨f, hs, ht⟩ | ⟨r, hs, ht⟩
    · rw [run_succ_of_next hs, run_succ_of_next ht]
      exact ih h'
    · rw [run_succ_of_fault hs, run_succ_of_fault ht]
      rfl
    · rw [run_succ_of_refused hs, run_succ_of_refused ht]
      rfl

/-- Settles O36, by induction on the number of steps. -/
theorem bufferAndPointerUnobservable : Obligations.BufferAndPointerUnobservable :=
  fun k _ _ h => h.run k

end Sys2Proof.Machine

/-! PROOFS. The register space and its gate: what one carried access does, what a run of stored bytes does to the clock
block, and the protection of the clock block over a step (spec/20_memory.md sections 5 to 8). -/

namespace Sys2Proof.Machine

/-! ### One write -/

theorem gateOpen_iff (r : Regs) : r.gateOpen = true ↔
    r.ctr2.getLsbD 7 = true ∧ r.ctr1.getLsbD 7 = true ∧ r.ctr1.getLsbD 2 = true := by
  simp [Regs.gateOpen, Regs.we1, Regs.we2, Regs.we3, and_assoc]

/-- A write that the gate lets through, or that no gate covers, stores the byte. -/
theorem write_of_through {x : Reg} {r : Regs} (h : x.gated = true → r.gateOpen = true) (v : Byte) :
    r.write x.addr v = r.set v x := by
  simp only [Regs.write, regAt_addr]
  refine if_neg fun hblocked => ?_
  simp only [Bool.and_eq_true, Bool.not_eq_true'] at hblocked
  obtain ⟨hg, hclosed⟩ := hblocked
  rw [h hg] at hclosed
  cases hclosed

/-- A write that the closed gate stops changes nothing. -/
theorem write_of_blocked {x : Reg} {r : Regs} (hg : x.gated = true) (hclosed : r.gateOpen = false) (v : Byte) :
    r.write x.addr v = r := by
  simp only [Regs.write, regAt_addr]
  exact if_pos (by rw [hg, hclosed]; rfl)

/-- The first seven addresses are the clock block's. -/
theorem exists_gated_of_toNat_le {a : Byte} (h : a.toNat ≤ 0x06) : ∃ x : Reg, x.gated = true ∧ a = x.addr := by
  have haddr : ∀ x : Reg, x.gated = true → a.toNat = x.addr.toNat → ∃ x : Reg, x.gated = true ∧ a = x.addr :=
    fun x hg hx => ⟨x, hg, BitVec.eq_of_toNat_eq hx⟩
  interval_cases a.toNat
  exacts [haddr .sec rfl rfl, haddr .min rfl rfl, haddr .hour rfl rfl, haddr .dow rfl rfl, haddr .dom rfl rfl,
    haddr .mon rfl rfl, haddr .year rfl rfl]

/-- A write to an unmapped address changes nothing. -/
theorem write_of_unmapped {a : Byte} (h : ∀ x : Reg, a ≠ x.addr) (r : Regs) (v : Byte) : r.write a v = r := by
  rcases write_cases r a v with ⟨hw, -⟩ | ⟨x, hx, -⟩
  · exact hw
  · exact absurd hx (h x)

theorem set_set_same (r : Regs) (v : Byte) (x : Reg) : (r.set v x).set v x = r.set v x := by
  cases x <;> rfl

theorem gateOpen_set_of_gated {x : Reg} (h : x.gated = true) (r : Regs) (v : Byte) :
    (r.set v x).gateOpen = r.gateOpen := by
  cases x with
  | sec | min | hour | dow | dom | mon | year => rfl
  | ctr1 | ctr2 | trim => cases h

/-- Writing a byte twice is writing it once: a gated write does not move the gate. -/
theorem write_write_same (r : Regs) (a v : Byte) : (r.write a v).write a v = r.write a v := by
  rcases write_cases r a v with ⟨hw, -⟩ | ⟨x, rfl, hopen, hw⟩
  · rw [hw, hw]
  · rw [hw, write_of_through (fun hg => (gateOpen_set_of_gated hg r v).trans (hopen hg)), set_set_same]

/-! ### A carried access -/

theorem exec_wrReg_ok {s : State} (h : s.verdict = some .ok) (a d : Byte) :
    ∃ t, exec (.wrReg a d) s = .next t ∧ t.reg = s.reg.write a d ∧ t.resp = .done ∧ t.answers = s.answers.tail :=
  ⟨_, wrRegResult a d s h, rfl, rfl, asked_answers s _⟩

theorem exec_rdReg_mapped {s : State} (h : s.verdict = some .ok) (x : Reg) :
    ∃ t, exec (.rdReg x.addr) s = .next t ∧ t.reg = s.reg ∧ t.resp = .byte (s.reg.get x) ∧
      t.answers = s.answers.tail := by
  obtain ⟨v, n, hexec, hexact⟩ := rdRegResult x.addr s h
  obtain rfl := hexact _ (read?_addr s.reg x)
  exact ⟨_, hexec, asked_reg s _, rfl, asked_answers s _⟩

/-- Settles O19, by the address: the clock block with the gate open and closed, the control registers, the rest. -/
theorem registerWriteRule : Obligations.RegisterWriteRule := by
  intro a d s h
  obtain ⟨t, hexec, hreg, hresp, -⟩ := exec_wrReg_ok h a d
  refine ⟨t, hexec, hresp, ?_⟩
  rw [hreg, ← gateOpen_iff]
  refine ⟨fun ha hopen => ?_, fun ha hclosed => ?_, ?_, fun ha h1 h2 h3 => ?_, fun x hx => read?_write_other _ d hx⟩
  · obtain ⟨x, -, rfl⟩ := exists_gated_of_toNat_le ha
    exact read?_write_same s.reg x d fun _ => hopen
  · obtain ⟨x, hg, rfl⟩ := exists_gated_of_toNat_le ha
    exact write_of_blocked hg (Bool.eq_false_iff.2 hclosed) d
  · rintro (rfl | rfl | rfl)
    · exact read?_write_same s.reg .ctr1 d nofun
    · exact read?_write_same s.reg .ctr2 d nofun
    · exact read?_write_same s.reg .trim d nofun
  · refine write_of_unmapped (fun x => ?_) s.reg d
    rintro rfl
    cases x with
    | sec | min | hour | dow | dom | mon | year => exact absurd ha (by decide)
    | ctr1 => exact h1 rfl
    | ctr2 => exact h2 rfl
    | trim => exact h3 rfl

/-! ### Frames that are all carried -/

theorem getElem?_of_take_eq_replicate {α : Type} {l : List α} {x : α} {n j : Nat}
    (h : l.take n = List.replicate n x) (hj : j < n) : l[j]? = some x := by
  rw [← List.getElem?_take_of_lt hj, h, List.getElem?_replicate_of_lt hj]

theorem take_eq_replicate_mono {α : Type} {l : List α} {x : α} {m n : Nat} (h : l.take n = List.replicate n x)
    (hm : m ≤ n) : l.take m = List.replicate m x := by
  rw [← Nat.min_eq_left hm, ← List.take_take, h, List.take_replicate, Nat.min_eq_left hm]

theorem okFor_getElem? {s : State} {n j : Nat} (h : s.okFor n) (hj : j < n) : s.answers[j]? = some (some .ok) :=
  getElem?_of_take_eq_replicate h hj

theorem State.okFor.mono {s : State} {m n : Nat} (h : s.okFor n) (hm : m ≤ n) : s.okFor m :=
  take_eq_replicate_mono h hm

theorem verdict_of_head {s : State} {v : Verdict} (h : s.answers[0]? = some (some v)) : s.verdict = some v := by
  cases ha : s.answers with
  | nil => simp [ha] at h
  | cons w rest =>
    obtain rfl : w = some v := by simpa [ha] using h
    simp only [State.verdict, ha]

theorem verdict_of_okFor {s : State} {n : Nat} (h : s.okFor (n + 1)) : s.verdict = some .ok :=
  verdict_of_head (okFor_getElem? h (Nat.succ_pos n))

theorem okFor_of_tail {s t : State} {n : Nat} (h : s.okFor (n + 1)) (ht : t.answers = s.answers.tail) :
    t.okFor n := by
  have htail := congrArg List.tail (show s.answers.take (n + 1) = _ from h)
  rwa [List.tail_take_eq_take_tail, ← ht, List.tail_replicate] at htail

/-- The single writes of a run of bytes, every frame carried. -/
theorem singleWrites_ok {a : Byte} {data : List Byte} {s : State} (h : s.okFor data.length) :
    ∃ u, singleWrites a data s = .next u ∧ u.reg = writeRun a data s.reg := by
  induction data generalizing a s with
  | nil => exact ⟨s, rfl, rfl⟩
  | cons d ds ih =>
    obtain ⟨t, hexec, hreg, -, hanswers⟩ := exec_wrReg_ok (verdict_of_okFor h) a d
    obtain ⟨u, hrun, hu⟩ := ih (a := a + 1) (okFor_of_tail h hanswers)
    refine ⟨u, ?_, by rw [hu, hreg, writeRun]⟩
    simp only [singleWrites, hexec, hrun]

/-- Settles O31: both are the run of the data bytes through the gate. -/
theorem burstEqualsSingleWrites : Obligations.BurstEqualsSingleWrites := by
  intro a data s hn h
  obtain ⟨u, hrun, hu⟩ := singleWrites_ok (a := a) (h.mono (Nat.le_succ _))
  exact ⟨_, u, wrBurstResult a data s hn (verdict_of_okFor h), hrun, hu.symm⟩

/-- Settles O32: the write stores the byte, and the read returns the stored one. -/
theorem readAfterWrite : Obligations.ReadAfterWrite := by
  intro x d s h hopen
  obtain ⟨t, hwrite, hreg, -, hanswers⟩ := exec_wrReg_ok (verdict_of_okFor h) x.addr d
  obtain ⟨u, hread, -, hresp, -⟩ := exec_rdReg_mapped (verdict_of_okFor (okFor_of_tail h hanswers)) x
  refine ⟨t, u, hwrite, hread, ?_⟩
  rw [hresp, hreg, write_of_through hopen, get_set_same]

/-- Settles O33: a read changes no register, and a write twice is a write once. -/
theorem accessesIdempotent : Obligations.AccessesIdempotent := by
  intro x s h
  refine ⟨?_, fun d => ?_⟩
  · obtain ⟨t, hfirst, hreg, hresp, hanswers⟩ := exec_rdReg_mapped (verdict_of_okFor h) x
    obtain ⟨u, hsecond, hreg', hresp', -⟩ := exec_rdReg_mapped (verdict_of_okFor (okFor_of_tail h hanswers)) x
    exact ⟨t, u, hfirst, hsecond, hresp, by rw [hresp', hreg, hresp], hreg'.trans hreg⟩
  · obtain ⟨t, hfirst, hreg, -, hanswers⟩ := exec_wrReg_ok (verdict_of_okFor h) x.addr d
    obtain ⟨u, hsecond, hreg', -⟩ := exec_wrReg_ok (verdict_of_okFor (okFor_of_tail h hanswers)) x.addr d
    exact ⟨t, u, hfirst, hsecond, by rw [hreg', hreg, write_write_same]⟩

/-! ### The gate over a run of stored bytes -/

/-- The gate is read from the two control registers. -/
theorem gateOpen_of_read? {q r : Regs} (h1 : q.read? Reg.ctr1.addr = r.read? Reg.ctr1.addr)
    (h2 : q.read? Reg.ctr2.addr = r.read? Reg.ctr2.addr) : q.gateOpen = r.gateOpen := by
  rw [read?_addr, read?_addr, Option.some.injEq] at h1 h2
  exact gateOpen_congr h1 h2

/-- A run of `n` bytes from `a` writes to neither control register that holds a write-enable bit. -/
def AvoidsControl (a : Byte) (n : Nat) : Prop :=
  ∀ j < n, Reg.ctr1.addr ≠ effectiveAddress a (j + 1) ∧ Reg.ctr2.addr ≠ effectiveAddress a (j + 1)

theorem writeRun_gateOpen_of_avoids {a : Byte} {ds : List Byte} (h : AvoidsControl a ds.length) (r : Regs) :
    (writeRun a ds r).gateOpen = r.gateOpen :=
  gateOpen_of_read? (writeRun_read?_other a ds r fun j hj => (h j hj).1)
    (writeRun_read?_other a ds r fun j hj => (h j hj).2)

theorem write_gateOpen_of_ne {a : Byte} (h1 : a ≠ Reg.ctr1.addr) (h2 : a ≠ Reg.ctr2.addr) (r : Regs) (v : Byte) :
    (r.write a v).gateOpen = r.gateOpen :=
  gateOpen_of_read? (read?_write_other r v h1.symm) (read?_write_other r v h2.symm)

/-- Behind the closed gate no write reaches the clock block. -/
theorem write_clock_of_closed {r : Regs} (h : r.gateOpen = false) (a v : Byte) : (r.write a v).clock = r.clock := by
  rcases write_cases r a v with ⟨hw, -⟩ | ⟨x, -, hopen, hw⟩
  · rw [hw]
  · rw [hw]
    cases x with
    | sec | min | hour | dow | dom | mon | year => exact absurd (hopen rfl) (by rw [h]; decide)
    | ctr1 | ctr2 | trim => rfl

theorem AvoidsControl.tail {a : Byte} {n : Nat} (h : AvoidsControl a (n + 1)) : AvoidsControl (a + 1) n := by
  intro j hj
  rw [effectiveAddress_succ]
  exact h (j + 1) (Nat.succ_lt_succ hj)

/-- A run that does not touch the closed gate does not reach the clock block. -/
theorem writeRun_clock_of_avoids {a : Byte} {ds : List Byte} {r : Regs} (havoid : AvoidsControl a ds.length)
    (h : r.gateOpen = false) : (writeRun a ds r).clock = r.clock := by
  induction ds generalizing a r with
  | nil => rfl
  | cons d ds ih =>
    obtain ⟨h1, h2⟩ := havoid 0 (Nat.succ_pos _)
    rw [effectiveAddress_one] at h1 h2
    have hclosed : (r.write a d).gateOpen = false := (write_gateOpen_of_ne h1.symm h2.symm r d).trans h
    rw [writeRun, ih havoid.tail hclosed, write_clock_of_closed h]

/-- From 0x11 it takes 254 addresses to come round to 0x0F. -/
theorem ne_effectiveAddress_past {x : Byte} (hlow : 0x0F ≤ x.toNat) (hhigh : x.toNat ≤ 0x10) {j : Nat} (hj : j < 253) :
    x ≠ effectiveAddress 0x11 (j + 1) := by
  rintro rfl
  have haddr : (effectiveAddress 0x11 (j + 1)).toNat = (17 + j) % 256 := by
    simp [effectiveAddress, BitVec.toNat_add]
  omega

theorem avoidsControl_past {n : Nat} (h : n ≤ 253) : AvoidsControl 0x11 n := fun _ hj =>
  ⟨ne_effectiveAddress_past (by decide) (by decide) (hj.trans_le h),
    ne_effectiveAddress_past (by decide) (by decide) (hj.trans_le h)⟩

/-- Past the control registers a run cannot come back to close the gate: one that ends with the gate closed has never
had it open. -/
theorem writeRun_clock_past_control {ds : List Byte} {r : Regs} (hlen : ds.length ≤ 253)
    (hend : (writeRun 0x11 ds r).gateOpen = false) : (writeRun 0x11 ds r).clock = r.clock := by
  have havoid := avoidsControl_past hlen
  rw [writeRun_gateOpen_of_avoids havoid] at hend
  exact writeRun_clock_of_avoids havoid hend

/-- A run of at most 254 bytes that begins and ends with the gate closed leaves the clock block alone: up to CTR1 or
CTR2 the gate is closed, and past them the run cannot come back. -/
theorem writeRun_clock_of_closed {a : Byte} {ds : List Byte} {r : Regs} (hlen : ds.length ≤ 254)
    (hstart : r.gateOpen = false) (hend : (writeRun a ds r).gateOpen = false) :
    (writeRun a ds r).clock = r.clock := by
  induction ds generalizing a r with
  | nil => rfl
  | cons d ds ih =>
    rw [List.length_cons] at hlen
    rw [← write_clock_of_closed hstart a d]
    by_cases h1 : a = Reg.ctr1.addr
    · subst h1
      cases ds with
      | nil => rfl
      | cons d' ds =>
        rw [List.length_cons] at hlen
        exact writeRun_clock_past_control (by omega) hend
    · by_cases h2 : a = Reg.ctr2.addr
      · subst h2
        exact writeRun_clock_past_control (by omega) hend
      · exact ih (by omega) ((write_gateOpen_of_ne h1 h2 r d).trans hstart) hend

/-! ### The gate and the clock block over a step -/

theorem timePasses_gateOpen (s : State) : s.timePasses.reg.gateOpen = s.reg.gateOpen :=
  gateOpen_congr (timePasses_ctr1 s) (timePasses_ctr2 s)

/-- Settles O40: the bytes an operation stores are too few to open the gate, write the clock block and close the gate
again. -/
theorem closedGateProtectsClock : Obligations.ClosedGateProtectsClock := by
  intro s t h hstart hend
  rcases step_next_cases h with ⟨-, rfl⟩ | ⟨i, rest, -, hexec⟩
  · rfl
  · obtain ⟨a, stored, hlen, -, hreg⟩ := exec_reg_eq_writeRun hexec
    rw [hreg] at hend ⊢
    exact writeRun_clock_of_closed hlen ((timePasses_gateOpen s).trans hstart) hend

/-- Settles O41: a register that is not written to reads as before, and time leaves CTR1 and CTR2 alone. -/
theorem onlyControlWritesMoveGate : Obligations.OnlyControlWritesMoveGate := by
  intro s t h hctr
  rcases step_next_cases h with ⟨-, rfl⟩ | ⟨i, rest, hd, hexec⟩
  · exact timePasses_gateOpen s
  · obtain ⟨h1, h2⟩ := hctr i rest hd
    exact (gateOpen_of_read? (exec_read?_of_notMem hexec h1) (exec_read?_of_notMem hexec h2)).trans
      (timePasses_gateOpen s)

end Sys2Proof.Machine

/-! PROOFS. The clock driver's write sequences: what has been sent and stored at each point of a sequence, and the
statements on WRITE_ENABLE, TRIM_CLEAR and SET_DATETIME (spec/43_driver_sequences.md Write sequencing,
spec/60_exceptions.md section 5). -/

namespace Sys2Proof.Machine

/-! ### One issued write -/

/-- `t` is the state that a write frame of `data` to `a`, issued in `s`, leaves when it has stored `stored`. -/
structure Wrote (s t : State) (a : Byte) (data stored : List Byte) : Prop where
  reg : t.reg = writeRun a stored s.timePasses.reg
  frames : t.frames = s.frames ++ [.w Config.devAddr (a :: data)]
  answers : t.answers = s.answers.tail
  ticks : t.ticks = s.ticks.tail

theorem wrote_of_asked {s : State} {a : Byte} {data stored buf : List Byte} {len : Nat} {x : Byte} {r : Response}
    {m : Nat} : Wrote s { s.timePasses.asked (.w Config.devAddr (a :: data)) with
      buf := buf, len := len, ap := x, reg := writeRun a stored s.timePasses.reg, resp := r, draws := m }
      a data stored where
  reg := rfl
  frames := (asked_frames s.timePasses _).trans (congrArg (· ++ _) (timePasses_frames s))
  answers := (asked_answers s.timePasses _).trans (congrArg List.tail (timePasses_answers s))
  ticks := (asked_ticks s.timePasses _).trans (timePasses_ticks s)

theorem issue_write_ok {i : Instr} {a : Byte} {data : List Byte} (hw : WritesData i a data)
    (hn : lenOk (data.length + 1) = true) {s : State} (h : s.timePasses.verdict = some .ok) :
    ∃ t, Wrote s t a data data ∧ ∀ andThen, issue i s andThen = andThen .done t :=
  ⟨_, wrote_of_asked, issue_of_ok ((hw.exec_eq hn _).trans (writeTransfer_ok h a data)) rfl⟩

theorem issue_write_err {i : Instr} {a : Byte} {data : List Byte} (hw : WritesData i a data)
    (hn : lenOk (data.length + 1) = true) {s : State} {e : BusErr} (h : s.timePasses.verdict = some (.err e)) :
    ∃ t k, k ≤ data.length ∧ Wrote s t a data (data.take k) ∧
      ∀ andThen, issue i s andThen = .next (t, .busError e) := by
  obtain ⟨k, x, m, hk, hrun⟩ := writeTransfer_err h a data
  exact ⟨_, k, hk, wrote_of_asked, issue_of_failure ((hw.exec_eq hn _).trans hrun) rfl⟩

/-- Settles O51: TRIM is not gated, and its error is handed on. -/
theorem trimClearIsNotGated : Obligations.TrimClearIsNotGated := by
  intro s
  refine ⟨fun hok => ?_, fun e herr => ?_⟩
  · obtain ⟨t, hwrote, hrun⟩ := issue_write_ok (.reg 0x12 0x00) lenOk_two hok
    exact ⟨t, hrun _, hwrote.reg, hwrote.frames⟩
  · obtain ⟨t, k, -, -, hrun⟩ := issue_write_err (.reg 0x12 0x00) lenOk_two herr
    exact ⟨t, hrun _⟩

/-! ### The control registers do not depend on the clock block -/

theorem write_with_clock (r : Regs) (c : ClockBlock) (a v : Byte) :
    ∃ c', { r with clock := c }.write a v = { r.write a v with clock := c' } := by
  have hgate : { r with clock := c }.gateOpen = r.gateOpen := rfl
  unfold Regs.write
  rw [hgate]
  cases regAt a with
  | none => exact ⟨c, rfl⟩
  | some x =>
    by_cases hblocked : (x.gated && !r.gateOpen) = true
    · exact ⟨c, by simp only [hblocked, if_true]⟩
    · simp only [hblocked]
      cases x <;> exact ⟨_, rfl⟩

theorem writeRun_with_clock (a : Byte) (ds : List Byte) (r : Regs) (c : ClockBlock) :
    ∃ c', writeRun a ds { r with clock := c } = { writeRun a ds r with clock := c' } := by
  induction ds generalizing a r c with
  | nil => exact ⟨c, rfl⟩
  | cons d ds ih =>
    obtain ⟨c', hc'⟩ := write_with_clock r c a d
    rw [writeRun, writeRun, hc']
    exact ih (a + 1) (r.write a d) c'

/-! ### Where a sequence stands

The schedules are read from the state the sequence began in, so that a premise about them serves at every point. -/

/-- From `s`, `ops` operations have run to `t` and sent the frames `fs`; the registers are `q`, but for what the
timekeeper made of the clock block. -/
structure Ran (s t : State) (fs : List Frame) (ops : Nat) (q : Regs) : Prop where
  frames : t.frames = s.frames ++ fs
  answers : t.answers = s.answers.drop fs.length
  ticks : t.ticks = s.ticks.drop ops
  control : ∃ c, t.reg = { q with clock := c }
  still : s.still ops → t.reg = q

section
variable {s t : State} {fs : List Frame} {m : Nat} {q : Regs}

theorem Ran.refl (s : State) : Ran s s [] 0 s.reg where
  frames := (List.append_nil _).symm
  answers := rfl
  ticks := rfl
  control := ⟨_, rfl⟩
  still := fun _ => rfl

theorem State.still.mono {s : State} {m n : Nat} (h : s.still n) (hm : m ≤ n) : s.still m :=
  take_eq_replicate_mono h hm

/-- A timekeeper that is scheduled not to step leaves the registers alone. -/
theorem timePasses_reg_of_head {s : State} (h : s.ticks[0]? = some 0) : s.timePasses.reg = s.reg := by
  cases hs : s.ticks with
  | nil => simp [hs] at h
  | cons n rest =>
    obtain rfl : n = 0 := by simpa [hs] using h
    rw [timePasses_zero s hs]

theorem still_getElem? {s : State} {m : Nat} (h : s.still (m + 1)) : s.ticks[m]? = some 0 :=
  getElem?_of_take_eq_replicate h (Nat.lt_succ_self m)

theorem Ran.timePasses_control (h : Ran s t fs m q) : ∃ c, t.timePasses.reg = { q with clock := c } := by
  obtain ⟨c, hc⟩ := h.control
  rw [timePasses_reg_eq, hc]
  exact ⟨_, rfl⟩

theorem Ran.timePasses_still (h : Ran s t fs m q) (hs : s.still (m + 1)) : t.timePasses.reg = q := by
  rw [timePasses_reg_of_head (by rw [h.ticks, List.getElem?_drop, Nat.add_zero, still_getElem? hs])]
  exact h.still (hs.mono (Nat.le_succ m))

/-- The verdict on the next frame is the one scheduled for it at the start. -/
theorem Ran.verdict {v : Verdict} (h : Ran s t fs m q) (hv : s.answers[fs.length]? = some (some v)) :
    t.timePasses.verdict = some v :=
  verdict_of_head (by rw [timePasses_answers, h.answers, List.getElem?_drop, Nat.add_zero, hv])

theorem Ran.gateOpen (h : Ran s t fs m q) : t.reg.gateOpen = q.gateOpen := by
  obtain ⟨c, hc⟩ := h.control
  rw [hc]
  rfl

/-- A codec operation. -/
theorem Ran.codec (h : Ran s t fs m q) (r : Response) : Ran s (t.timePasses.respond r) fs (m + 1) q where
  frames := (timePasses_frames t).trans h.frames
  answers := (timePasses_answers t).trans h.answers
  ticks := by rw [respond_ticks, timePasses_ticks, h.ticks, List.tail_drop]
  control := h.timePasses_control
  still := h.timePasses_still

/-- A write frame. -/
theorem Ran.wrote {u : State} {a : Byte} {data stored : List Byte}
    (h : Ran s t fs m q) (hw : Wrote t u a data stored) :
    Ran s u (fs ++ [.w Config.devAddr (a :: data)]) (m + 1) (writeRun a stored q) where
  frames := by rw [hw.frames, h.frames, List.append_assoc]
  answers := by rw [hw.answers, h.answers, List.tail_drop, List.length_append, List.length_singleton]
  ticks := by rw [hw.ticks, h.ticks, List.tail_drop]
  control := by
    obtain ⟨c, hc⟩ := h.timePasses_control
    rw [hw.reg, hc]
    exact writeRun_with_clock a stored q c
  still hs := by rw [hw.reg, h.timePasses_still hs]

theorem Ran.issue_ok {i : Instr} {a : Byte} {data : List Byte}
    (h : Ran s t fs m q) (hw : WritesData i a data) (hn : lenOk (data.length + 1) = true)
    (hv : s.answers[fs.length]? = some (some .ok)) :
    ∃ u, Ran s u (fs ++ [.w Config.devAddr (a :: data)]) (m + 1) (writeRun a data q) ∧
      ∀ andThen, issue i t andThen = andThen .done u := by
  obtain ⟨u, hwrote, hrun⟩ := issue_write_ok hw hn (h.verdict hv)
  exact ⟨u, h.wrote hwrote, hrun⟩

theorem Ran.issue_err {i : Instr} {a : Byte} {data : List Byte}
    {e : BusErr} (h : Ran s t fs m q) (hw : WritesData i a data) (hn : lenOk (data.length + 1) = true)
    (hv : s.answers[fs.length]? = some (some (.err e))) :
    ∃ u k, k ≤ data.length ∧
      Ran s u (fs ++ [.w Config.devAddr (a :: data)]) (m + 1) (writeRun a (data.take k) q) ∧
      ∀ andThen, issue i t andThen = .next (u, .busError e) := by
  obtain ⟨u, k, hk, hwrote, hrun⟩ := issue_write_err hw hn (h.verdict hv)
  exact ⟨u, k, hk, h.wrote hwrote, hrun⟩

/-! ### The parts of the write sequence -/

theorem runParts_of_done {p : WritePart} {t u : State} (h : p.run t = .next (u, .done)) (ps : List WritePart)
    (w : WriteSeq) : runParts (p :: ps) w t = runParts ps (w.after p) u := by
  simp only [runParts, h, Result.st, if_true]

theorem runParts_of_busError {p : WritePart} {t u : State} {e : BusErr} (h : p.run t = .next (u, .busError e))
    (ps : List WritePart) (w : WriteSeq) : runParts (p :: ps) w t = .next (u, .busError e, none) := by
  simp only [runParts, h, Result.st]
  rfl

/-- The parts that are one frame of `data` to `a`: all but the enable part. -/
inductive OneFrame : WritePart → Byte → List Byte → Prop
  | payload (a : Byte) (data : List Byte) (hn : lenOk (data.length + 1) = true) : OneFrame (.payload (a :: data)) a data
  | disable : OneFrame .disable 0x0F [0x00, 0x00]
  | trimClear : OneFrame .trimClear 0x12 [0x00]

theorem OneFrame.run_eq {p : WritePart} {a : Byte} {data : List Byte} (h : OneFrame p a data) :
    ∃ i, WritesData i a data ∧ lenOk (data.length + 1) = true ∧
      ∀ t, p.run t = issue i t fun _ u => .next (u, .done) := by
  cases h with
  | payload _ _ hn => exact ⟨_, .burst a data, hn, fun _ => rfl⟩
  | disable => exact ⟨_, .burst 0x0F [0x00, 0x00], lenOk_of_le_eight (by decide) (by decide), fun _ => rfl⟩
  | trimClear => exact ⟨_, .reg 0x12 0x00, lenOk_two, fun _ => rfl⟩

theorem Ran.part_ok {p : WritePart} {a : Byte} {data : List Byte} (h : Ran s t fs m q) (hp : OneFrame p a data)
    (hv : s.answers[fs.length]? = some (some .ok)) :
    ∃ u, Ran s u (fs ++ [.w Config.devAddr (a :: data)]) (m + 1) (writeRun a data q) ∧
      ∀ ps w, runParts (p :: ps) w t = runParts ps (w.after p) u := by
  obtain ⟨i, hw, hn, hrun⟩ := hp.run_eq
  obtain ⟨u, hu, hissue⟩ := h.issue_ok hw hn hv
  exact ⟨u, hu, runParts_of_done ((hrun t).trans (hissue _))⟩

theorem Ran.part_err {p : WritePart} {a : Byte} {data : List Byte} {e : BusErr} (h : Ran s t fs m q)
    (hp : OneFrame p a data) (hv : s.answers[fs.length]? = some (some (.err e))) :
    ∃ u k, k ≤ data.length ∧
      Ran s u (fs ++ [.w Config.devAddr (a :: data)]) (m + 1) (writeRun a (data.take k) q) ∧
      ∀ ps w, runParts (p :: ps) w t = .next (u, .busError e, none) := by
  obtain ⟨i, hw, hn, hrun⟩ := hp.run_eq
  obtain ⟨u, k, hk, hu, hissue⟩ := h.issue_err hw hn hv
  exact ⟨u, k, hk, hu, runParts_of_busError ((hrun t).trans (hissue _))⟩

end

/-- The registers with both control registers at their unlock bytes. -/
def Regs.unlocked (r : Regs) : Regs := { r with ctr1 := 0x84, ctr2 := 0x80 }

@[simp] theorem gateOpen_unlocked (r : Regs) : r.unlocked.gateOpen = true := by
  simp [gateOpen_iff, Regs.unlocked]

/-- The two frames of the enable part. -/
def enableFrames : List Frame := [.w Config.devAddr [0x10, 0x80], .w Config.devAddr [0x0F, 0x84]]

theorem writeEnable_ok {s t : State} {m : Nat} (h : Ran s t [] m s.reg) (hok : s.okFor 2) :
    ∃ u, Ran s u enableFrames (m + 2) s.reg.unlocked ∧ writeEnable t = .next (u, .done) := by
  obtain ⟨u, hu, hfirst⟩ := h.issue_ok (.reg 0x10 0x80) lenOk_two (okFor_getElem? hok (by decide))
  obtain ⟨w, hw, hsecond⟩ := hu.issue_ok (.reg 0x0F 0x84) lenOk_two (okFor_getElem? hok (by decide))
  exact ⟨w, hw, (hfirst _).trans (hsecond _)⟩

/-- Settles O49: the two frames of the enable part, from a state in which nothing has been issued. -/
theorem writeEnableOpensGate : Obligations.WriteEnableOpensGate := by
  intro s hok
  obtain ⟨t, ht, hrun⟩ := writeEnable_ok (Ran.refl s) hok
  obtain ⟨c, hc⟩ := ht.control
  exact ⟨t, hrun, by rw [hc]; rfl, by rw [hc]; rfl, ht.gateOpen.trans (gateOpen_unlocked _), by rw [hc]; rfl, ht.frames⟩

/-! ### The payload behind the open gate -/

/-- The bytes stored one by one in the registers named, as far as both go. -/
def Regs.setAll (r : Regs) : List Reg → List Byte → Regs
  | x :: xs, v :: vs => (r.set v x).setAll xs vs
  | _, _ => r

/-- The clock block's registers in address order. -/
def clockRegs : List Reg := [.sec, .min, .hour, .dow, .dom, .mon, .year]

/-- With the gate open a run over gated registers at consecutive addresses stores every byte. -/
theorem writeRun_eq_setAll {x : Reg} {xs : List Reg} {r : Regs} {vs : List Byte}
    (hg : ∀ y ∈ x :: xs, y.gated = true) (hchain : (x :: xs).IsChain fun y z => z.addr = y.addr + 1)
    (hopen : r.gateOpen = true) (hlen : vs.length ≤ (x :: xs).length) :
    writeRun x.addr vs r = r.setAll (x :: xs) vs := by
  induction xs generalizing x r vs with
  | nil =>
    match vs, hlen with
    | [], _ => rfl
    | [v], _ => exact write_of_through (fun _ => hopen) v
  | cons y ys ih =>
    cases vs with
    | nil => rfl
    | cons v vs =>
      obtain ⟨hy, hrest⟩ := List.isChain_cons_cons.1 hchain
      have hset : (r.set v x).gateOpen = true := (gateOpen_set_of_gated (hg x List.mem_cons_self) r v).trans hopen
      rw [writeRun, write_of_through (fun _ => hopen), ← hy]
      exact ih (fun z hz => hg z (List.mem_cons_of_mem x hz)) hrest hset (Nat.le_of_succ_le_succ hlen)

/-- The first bytes of a payload take the place of as many registers of the clock block. -/
theorem writeRun_payload_prefix {r : Regs} (hopen : r.gateOpen = true) (c : ClockBlock) {k : Nat} (hk : k ≤ 7) :
    ∃ c', writeRun 0x00 (c.toList.take k) r = { r with clock := c' } ∧
      c'.toList = c.toList.take k ++ r.clock.toList.drop k := by
  have hrun : writeRun Reg.sec.addr (c.toList.take k) r = r.setAll clockRegs (c.toList.take k) :=
    writeRun_eq_setAll (by decide) (by decide) hopen (List.length_take_le' k c.toList)
  rw [show (0x00 : Byte) = Reg.sec.addr from rfl, hrun]
  interval_cases k <;> exact ⟨_, rfl, rfl⟩

theorem ClockBlock.toList_injective {c c' : ClockBlock} (h : c.toList = c'.toList) : c = c' := by
  cases c
  cases c'
  simpa [ClockBlock.toList] using h

/-- The whole payload is the clock block. -/
theorem writeRun_payload {r : Regs} (hopen : r.gateOpen = true) (c : ClockBlock) :
    writeRun 0x00 c.toList r = { r with clock := c } := by
  obtain ⟨c', hrun, hc'⟩ := writeRun_payload_prefix hopen c (Nat.le_refl 7)
  rw [ClockBlock.toList_injective (hc'.trans (List.append_nil _) : c'.toList = c.toList)] at hrun
  exact hrun

/-! ### The write sequence -/

/-- The registers with the write-enable bits cleared. -/
def Regs.locked (r : Regs) : Regs := { r with ctr1 := 0x00, ctr2 := 0x00 }

theorem gateOpen_locked (r : Regs) : r.locked.gateOpen = false := gateOpen_of_ctr2_zero rfl

/-- The registers at the end of the write sequence. -/
def Regs.written (c : ClockBlock) : Regs := { clock := c, ctr1 := 0x00, ctr2 := 0x00, trim := 0x00 }

/-- A clock block's payload is one frame of eight bytes. -/
theorem oneFrame_payload (c : ClockBlock) : OneFrame (.payload (0x00 :: c.toList)) 0x00 c.toList :=
  .payload 0x00 c.toList (lenOk_of_le_eight (n := 8) (by decide) (by decide))

/-! Each part from where the parts before it have ended. -/

theorem Ran.enable_ok {s t : State} {m : Nat} (h : Ran s t [] m s.reg) (hok : s.okFor 2) :
    ∃ u, Ran s u enableFrames (m + 2) s.reg.unlocked ∧
      ∀ ps w, runParts (.enable :: ps) w t = runParts ps (w.after .enable) u := by
  obtain ⟨u, hu, hrun⟩ := writeEnable_ok h hok
  exact ⟨u, hu, runParts_of_done hrun⟩

theorem Ran.payload_ok {s t : State} {m : Nat} (c : ClockBlock) (h : Ran s t enableFrames m s.reg.unlocked)
    (hok : s.okFor 3) : ∃ u, Ran s u ((setFrames c).take 3) (m + 1) { s.reg.unlocked with clock := c } ∧
      ∀ ps w, runParts (.payload (0x00 :: c.toList) :: ps) w t =
        runParts ps (w.after (.payload (0x00 :: c.toList))) u := by
  obtain ⟨u, hu, hrun⟩ := h.part_ok (oneFrame_payload c) (okFor_getElem? hok (show 2 < 3 by decide))
  rw [writeRun_payload (gateOpen_unlocked s.reg)] at hu
  exact ⟨u, hu, hrun⟩

theorem Ran.disable_ok {s t : State} {m : Nat} (c : ClockBlock)
    (h : Ran s t ((setFrames c).take 3) m { s.reg.unlocked with clock := c }) (hok : s.okFor 4) :
    ∃ u, Ran s u ((setFrames c).take 4) (m + 1) { s.reg.locked with clock := c } ∧
      ∀ ps w, runParts (.disable :: ps) w t = runParts ps (w.after .disable) u :=
  h.part_ok .disable (okFor_getElem? hok (show 3 < 4 by decide))

theorem Ran.trimClear_ok {s t : State} {m : Nat} (c : ClockBlock)
    (h : Ran s t ((setFrames c).take 4) m { s.reg.locked with clock := c }) (hok : s.okFor 5) :
    ∃ u, Ran s u (setFrames c) (m + 1) (Regs.written c) ∧
      ∀ ps w, runParts (.trimClear :: ps) w t = runParts ps (w.after .trimClear) u :=
  h.part_ok .trimClear (okFor_getElem? hok (show 4 < 5 by decide))

/-- The write sequence with its five frames carried: the state after each part, and where it stands. -/
theorem setParts_ok {s t : State} {m : Nat} (c : ClockBlock) (h : Ran s t [] m s.reg) (hok : s.okFor 5) :
    ∃ t₁ t₂ t₃ t₄,
      (t₁.reg.gateOpen = true ∧ runParts [.enable] .idle t = .next (t₁, .done, some .writeEnabled)) ∧
      (t₂.reg.gateOpen = true ∧
        runParts [.enable, .payload (0x00 :: c.toList)] .idle t = .next (t₂, .done, some .writeEnabled)) ∧
      (t₃.reg.gateOpen = false ∧
        runParts [.enable, .payload (0x00 :: c.toList), .disable] .idle t = .next (t₃, .done, some .idle)) ∧
      (Ran s t₄ (setFrames c) (m + 5) (Regs.written c) ∧
        runParts (setParts (0x00 :: c.toList)) .idle t = .next (t₄, .done, some .idle)) := by
  obtain ⟨t₁, h₁, hrun₁⟩ := h.enable_ok (hok.mono (by decide))
  obtain ⟨t₂, h₂, hrun₂⟩ := h₁.payload_ok c (hok.mono (by decide))
  obtain ⟨t₃, h₃, hrun₃⟩ := h₂.disable_ok c (hok.mono (by decide))
  obtain ⟨t₄, h₄, hrun₄⟩ := h₃.trimClear_ok c hok
  refine ⟨t₁, t₂, t₃, t₄, ⟨h₁.gateOpen.trans (gateOpen_unlocked _), ?_⟩,
    ⟨h₂.gateOpen.trans (gateOpen_unlocked { s.reg with clock := c }), ?_⟩,
    ⟨h₃.gateOpen.trans (gateOpen_locked { s.reg with clock := c }), ?_⟩, h₄, ?_⟩
  · rw [hrun₁]; rfl
  · rw [hrun₁, hrun₂]; rfl
  · rw [hrun₁, hrun₂, hrun₃]; rfl
  · rw [setParts, hrun₁, hrun₂, hrun₃, hrun₄]; rfl

/-! ### The write sequence with a frame that fails

The rows of the table of spec/60_exceptions.md R170: the failing frame has stored its first
data bytes, some or none or all. -/

theorem failedSetRow_first (r : Regs) (c : ClockBlock) {k : Nat} (hk : k ≤ 1) :
    FailedSetRow 0 r (writeRun 0x10 (([0x80] : List Byte).take k) r) c := by
  interval_cases k
  · exact ⟨.inl rfl, rfl, rfl, rfl⟩
  · exact ⟨.inr rfl, rfl, rfl, rfl⟩

theorem failedSetRow_second (r : Regs) (c : ClockBlock) {k : Nat} (hk : k ≤ 1) :
    FailedSetRow 1 r (writeRun 0x0F (([0x84] : List Byte).take k) (writeRun 0x10 [0x80] r)) c := by
  interval_cases k
  · exact ⟨rfl, .inl rfl, rfl, rfl⟩
  · exact ⟨rfl, .inr rfl, rfl, rfl⟩

theorem failedSetRow_payload (r : Regs) (c : ClockBlock) {k : Nat} (hk : k ≤ 7) :
    FailedSetRow 2 r (writeRun 0x00 (c.toList.take k) r.unlocked) c := by
  obtain ⟨c', hrun, hc'⟩ := writeRun_payload_prefix (gateOpen_unlocked r) c hk
  rw [hrun]
  exact ⟨rfl, rfl, rfl, k, hk, hc'⟩

theorem failedSetRow_disable (r : Regs) (c : ClockBlock) {k : Nat} (hk : k ≤ 2) :
    FailedSetRow 3 r (writeRun 0x0F (([0x00, 0x00] : List Byte).take k) { r.unlocked with clock := c }) c := by
  interval_cases k
  · exact ⟨.inl ⟨rfl, rfl⟩, rfl, rfl⟩
  · exact ⟨.inr (.inl ⟨rfl, rfl⟩), rfl, rfl⟩
  · exact ⟨.inr (.inr ⟨rfl, rfl⟩), rfl, rfl⟩

theorem failedSetRow_trimClear (r : Regs) (c : ClockBlock) {k : Nat} (hk : k ≤ 1) :
    FailedSetRow 4 r (writeRun 0x12 (([0x00] : List Byte).take k) { r.locked with clock := c }) c := by
  interval_cases k
  · exact ⟨rfl, rfl, rfl, .inl rfl⟩
  · exact ⟨rfl, rfl, rfl, .inr rfl⟩

/-- The write sequence whose frame `n` is the first to fail ends there, with the registers of the table's row `n`. -/
theorem setParts_err {s t : State} {m n : Nat} {e : BusErr} (c : ClockBlock) (h : Ran s t [] m s.reg) (hn : n < 5)
    (hok : s.okFor n) (herr : s.answers[n]? = some (some (.err e))) :
    ∃ u q, Ran s u ((setFrames c).take (n + 1)) (m + (n + 1)) q ∧ FailedSetRow n s.reg q c ∧
      runParts (setParts (0x00 :: c.toList)) .idle t = .next (u, .busError e, none) := by
  match n with
  | 0 =>
    obtain ⟨u, k, hk, hu, hrun⟩ := h.issue_err (.reg 0x10 0x80) lenOk_two herr
    have hpart : writeEnable t = .next (u, .busError e) := hrun _
    exact ⟨u, _, hu, failedSetRow_first s.reg c hk, runParts_of_busError (p := .enable) hpart _ _⟩
  | 1 =>
    obtain ⟨t₁, h₁, hrun₁⟩ := h.issue_ok (.reg 0x10 0x80) lenOk_two (okFor_getElem? hok (by decide))
    obtain ⟨u, k, hk, hu, hrun⟩ := h₁.issue_err (.reg 0x0F 0x84) lenOk_two herr
    have hpart : writeEnable t = .next (u, .busError e) := (hrun₁ _).trans (hrun _)
    exact ⟨u, _, hu, failedSetRow_second s.reg c hk, runParts_of_busError (p := .enable) hpart _ _⟩
  | n + 2 =>
    obtain ⟨t₁, h₁, hrun₁⟩ := h.enable_ok (hok.mono (by omega))
    rw [setParts, hrun₁]
    match n with
    | 0 =>
      obtain ⟨u, k, hk, hu, hrun⟩ := h₁.part_err (oneFrame_payload c) herr
      exact ⟨u, _, hu, failedSetRow_payload s.reg c hk, hrun _ _⟩
    | n + 1 =>
      obtain ⟨t₂, h₂, hrun₂⟩ := h₁.payload_ok c (hok.mono (by omega))
      rw [hrun₂]
      match n with
      | 0 =>
        obtain ⟨u, k, hk, hu, hrun⟩ := h₂.part_err .disable herr
        exact ⟨u, _, hu, failedSetRow_disable s.reg c hk, hrun _ _⟩
      | n + 1 =>
        obtain rfl : n = 0 := by omega
        obtain ⟨t₃, h₃, hrun₃⟩ := h₂.disable_ok c hok
        obtain ⟨u, k, hk, hu, hrun⟩ := h₃.part_err .trimClear herr
        rw [hrun₃]
        exact ⟨u, _, hu, failedSetRow_trimClear s.reg c hk, hrun _ _⟩

/-- Settles O56: the write sequence from a state in which nothing has been issued. -/
theorem writeSequenceStates : Obligations.WriteSequenceStates := by
  refine fun c s => ⟨fun hok => ?_, fun n e hn hok herr => ?_⟩
  · obtain ⟨t₁, t₂, t₃, t₄, ⟨hgate₁, hrun₁⟩, ⟨hgate₂, hrun₂⟩, ⟨hgate₃, hrun₃⟩, h₄, hrun₄⟩ :=
      setParts_ok c (Ran.refl s) hok
    exact ⟨t₁, t₂, t₃, t₄, hrun₁, hgate₁, hrun₂, hgate₂, hrun₃, hgate₃, hrun₄,
      h₄.gateOpen.trans (gateOpen_of_ctr2_zero rfl)⟩
  · obtain ⟨u, q, -, -, hrun⟩ := setParts_err c (Ran.refl s) hn hok herr
    exact ⟨u, hrun⟩

/-! ### SET_DATETIME -/

theorem issue_bcdEnc (v : Byte) (s : State) (andThen : Response → State → Ended) :
    issue (.bcdEnc v) s andThen = andThen (.byte (bcdEncode v)) (s.timePasses.respond (.byte (bcdEncode v))) :=
  issue_of_ok (t := s.timePasses.respond _) rfl rfl andThen

theorem issue_hourEnc_of_inRange {tag : HourTag} {v : Byte} (h : hourInRange tag v = true) (s : State)
    (andThen : Response → State → Ended) : issue (.hourEnc tag v) s andThen =
      andThen (.byte (hourEncode tag v)) (s.timePasses.respond (.byte (hourEncode tag v))) :=
  issue_of_ok (t := s.timePasses.respond _) (exec_hourEnc_of_inRange _ h) rfl andThen

theorem yearInWindow_iff (year : BitVec 16) :
    yearInWindow year = true ↔ 2000 ≤ year.toNat ∧ year.toNat ≤ 2100 := by
  simp [yearInWindow]

/-- Settles O53: the year is checked before anything is issued, the hour by the first operation. -/
theorem setDatetimeChecksFirst : Obligations.SetDatetimeChecksFirst := by
  refine fun year month day weekday hour minute second s => ⟨fun hyear => ?_, fun hlow hhigh hhour => ?_⟩
  · exact if_neg (by rw [yearInWindow_iff]; omega)
  · refine ⟨s.timePasses.respond .invalidInputData, ?_, timePasses_frames s, rfl, timePasses_buf s, timePasses_len s,
      timePasses_ap s⟩
    rw [setDatetime, if_pos ((yearInWindow_iff year).2 ⟨hlow, hhigh⟩)]
    exact issue_of_failure (exec_hourEnc_of_outOfRange _ (by rw [hourInRange_h24]; omega)) rfl _

/-- In its accepted range SET_DATETIME encodes its fields by six codec operations and runs the write sequence on the
new clock block. -/
theorem setDatetime_encodes {year : BitVec 16} {hour : Byte} (hlow : 2000 ≤ year.toNat) (hhigh : year.toNat ≤ 2100)
    (hhour : hour.toNat ≤ 23) (month day weekday minute second : Byte) (s : State) :
    ∃ t, Ran s t [] 6 s.reg ∧ setDatetime year month day weekday hour minute second s = endParts (runParts
      (setParts (0x00 :: (newClock year month day weekday hour minute second).toList)) .idle t) := by
  have hrun : setDatetime year month day weekday hour minute second s = _ :=
    if_pos ((yearInWindow_iff year).2 ⟨hlow, hhigh⟩)
  rw [issue_hourEnc_of_inRange (hourInRange_h24.2 hhour), issue_bcdEnc, issue_bcdEnc, issue_bcdEnc, issue_bcdEnc,
    issue_bcdEnc] at hrun
  exact ⟨_, ((((((Ran.refl s).codec _).codec _).codec _).codec _).codec _).codec _, hrun⟩

/-- SET_DATETIME with its five frames carried. -/
theorem setDatetime_ok {year : BitVec 16} {hour : Byte} (hlow : 2000 ≤ year.toNat) (hhigh : year.toNat ≤ 2100)
    (hhour : hour.toNat ≤ 23) (month day weekday minute second : Byte) {s : State} (hok : s.okFor 5) :
    ∃ t, Ran s t (setFrames (newClock year month day weekday hour minute second)) 11
        (Regs.written (newClock year month day weekday hour minute second)) ∧
      setDatetime year month day weekday hour minute second s = .next (t, .done) := by
  obtain ⟨t₀, h₀, hrun⟩ := setDatetime_encodes hlow hhigh hhour month day weekday minute second s
  obtain ⟨-, -, -, t, -, -, -, h, hparts⟩ := setParts_ok _ h₀ hok
  exact ⟨t, h, by rw [hrun, hparts]; rfl⟩

/-- Settles O52: the write sequence after the six codec operations. -/
theorem setDatetimeWritesClock : Obligations.SetDatetimeWritesClock := by
  intro year month day weekday hour minute second s hlow hhigh hhour hok
  obtain ⟨t, h, hrun⟩ := setDatetime_ok hlow hhigh hhour month day weekday minute second hok
  obtain ⟨c, hc⟩ := h.control
  exact ⟨t, hrun, by rw [hc]; rfl, by rw [hc]; rfl, by rw [hc]; rfl, h.gateOpen.trans (gateOpen_of_ctr2_zero rfl),
    h.frames, fun hstill => by rw [h.still hstill]; rfl⟩

/-- Settles O54: the write sequence's failing frame after the six codec operations. -/
theorem setDatetimePartialFailure : Obligations.SetDatetimePartialFailure := by
  intro year month day weekday hour minute second s n e hlow hhigh hhour hstill hn hok herr
  obtain ⟨t₀, h₀, hrun⟩ := setDatetime_encodes hlow hhigh hhour month day weekday minute second s
  obtain ⟨t, q, h, hrow, hparts⟩ := setParts_err _ h₀ hn hok herr
  refine ⟨t, by rw [hrun, hparts]; rfl, h.frames, ?_⟩
  rw [h.still (hstill.mono (by omega))]
  exact hrow

/-! ### Setting and reading back -/

theorem bcdValue_bcdEncode {v : Byte} (h : v.toNat ≤ 159) : bcdValue (bcdEncode v) = v.toNat := by
  rw [← bcdDecode_toNat, bcdDecode_bcdEncode h]

/-- A field read back by its BCD value is the operand, up to 159. -/
theorem eq_of_toNat_eq_bcdValue {v w : Byte} (hw : w.toNat = bcdValue (bcdEncode v)) (h : v.toNat ≤ 159) : w = v :=
  BitVec.eq_of_toNat_eq (hw.trans (bcdValue_bcdEncode h))

theorem hourNumber_hourEncode_h24 {v : Byte} (h : v.toNat ≤ 23) : hourNumber (bcdEncode v ||| 0x80) = v.toNat := by
  have hback := hourDecode_hourEncode (hourInRange_h24.2 h)
  rw [hourEncode] at hback
  rw [← hourTo24_hourDecode_toNat, hback, hourTo24_toNat_of_ne_pm HourTag.noConfusion]

theorem yearOffset_toNat {year : BitVec 16} (h : year.toNat ≤ 2100) : (yearOffset year).toNat = year.toNat - 2000 := by
  rw [yearOffset, BitVec.toNat_ofNat]
  omega

theorem bcdValue_of_digit {v : Byte} (h : v.toNat ≤ 9) : bcdValue v = v.toNat := by
  rw [bcdValue_eq]
  omega

/-- Settles O55: the clock block written is the one that GET_DATETIME reads, and each field's decoding undoes its
encoding within its bound. -/
theorem setThenGetDatetime : Obligations.SetThenGetDatetime := by
  intro year month day weekday hour minute second s hlow hhigh hhour hok hstill
  obtain ⟨t, h, hset⟩ := setDatetime_ok hlow hhigh hhour month day weekday minute second (hok.mono (by decide))
  have hverdict : t.timePasses.verdict = some .ok := h.verdict (okFor_getElem? hok (show 5 < 6 by decide))
  have hclock : newClock year month day weekday hour minute second = t.timePasses.reg.clock := by
    rw [h.timePasses_still (hstill.mono (by decide))]
    rfl
  obtain ⟨u, y, mo, d, w, hr, mi, sec, hget, hy, hmo, hd, hw, hh, hmi, hsec, -⟩ :=
    (getDatetimeReadsOneSnapshot t _ hclock).1 hverdict
  have hyear := yearOffset_toNat hhigh
  refine ⟨t, u, y, mo, d, w, hr, mi, sec, hset, hget, ?_, hh.trans (hourNumber_hourEncode_h24 hhour),
    eq_of_toNat_eq_bcdValue hmo, eq_of_toNat_eq_bcdValue hd, eq_of_toNat_eq_bcdValue hmi,
    eq_of_toNat_eq_bcdValue hsec, hw, fun hdigit => hw.trans (congrArg (· + 1) (bcdValue_of_digit hdigit))⟩
  calc y.toNat = 2000 + bcdValue (bcdEncode (yearOffset year)) := hy
    _ = 2000 + (year.toNat - 2000) := by rw [bcdValue_bcdEncode (by omega), hyear]
    _ = year.toNat := Nat.add_sub_of_le hlow

end Sys2Proof.Machine
